-- ==== Sys2Proof/Word.lean ====
section
/-! DEFINITION. The word types of the TinyAdxl345 controller (00_scope.md R9: all values are unsigned bit vectors) and the
closed enumeration of the device registers a command can name (30_encoding.md R72). -/

namespace Sys2Proof

/-- A register value, a register offset, an immediate operand (00_scope.md R5: "register value width 8 bits"). -/
abbrev Byte := BitVec 8

/-- A command word (30_encoding.md R70: "Every command is one 16-bit word"). -/
abbrev Word := BitVec 16

/-- A device address on the two-wire bus (20_memory.md R40 (a): 7-bit device addresses). -/
abbrev BusAddr := BitVec 7

/-- The eight device registers, in the order of 30_encoding.md R72: "the set of valid offsets is a closed enumeration". -/
inductive DevReg where
  /-- power-control -/
  | pwr
  /-- data-format -/
  | fmt
  /-- tap-threshold -/
  | thr
  /-- tap-duration -/
  | dur
  /-- tap-axes -/
  | axes
  /-- interrupt-enable -/
  | inten
  /-- interrupt-source -/
  | intsrc
  /-- device-ID -/
  | id
deriving DecidableEq, Repr

end Sys2Proof
end

