-- ==== Sys2Proof/Config.lean ====
section
/-! DEFINITION. What this hardware fixes (00_scope.md R5), the one list it carries as a parameter (R6), the vocabulary of the
bus port (20_memory.md R59, 10_state.md R32), and the free value of the model: an answer the environment gives to a BusRead. -/

namespace Sys2Proof

/-- One event of the history: "every bus primitive the controller performs" (10_state.md R32, 20_memory.md R59). -/
inductive BusEvent where
  /-- `BusStartup()`: the bus-startup handshake, no frame. -/
  | startup
  /-- `BusWrite(a, bytes)`: one framed write transaction. -/
  | write (addr : BusAddr) (bytes : List Byte)
  /-- `BusRead(a, n) -> answer`: one framed read transaction and the list of bytes the environment returned. -/
  | read (addr : BusAddr) (n : Nat) (answer : List Byte)
deriving DecidableEq, Repr

/-- DEVADDR (00_scope.md R5: "fixed 7-bit value `0x53`", "never mutated"). -/
def Config.devAddr : BusAddr := 0x53#7

/-- DEVID_EXPECT (00_scope.md R5): the identity byte INIT compares with. -/
def Config.devIdExpect : Byte := 0xE5#8

/-- OFF_PWR, power-control (00_scope.md R5). -/
def Config.offPwr : Byte := 0x2D#8
/-- OFF_FMT, data-format (00_scope.md R5). -/
def Config.offFmt : Byte := 0x31#8
/-- OFF_THR, tap-threshold (00_scope.md R5). -/
def Config.offThr : Byte := 0x1D#8
/-- OFF_DUR, tap-duration (00_scope.md R5). -/
def Config.offDur : Byte := 0x21#8
/-- OFF_AXES, tap-axes (00_scope.md R5). -/
def Config.offAxes : Byte := 0x2A#8
/-- OFF_INTEN, interrupt-enable (00_scope.md R5). -/
def Config.offInten : Byte := 0x2E#8
/-- OFF_INTSRC, interrupt-source (00_scope.md R5). -/
def Config.offIntsrc : Byte := 0x30#8
/-- OFF_ID, device-ID (00_scope.md R5). -/
def Config.offId : Byte := 0x00#8

/-- Bytes requested per read (00_scope.md R5: "request exactly one byte"). -/
def Config.readLength : Nat := 1

/-- The sentinel returned by a failed read (00_scope.md R5). -/
def Config.sentinel : Byte := 0x00#8

/-- INIT_PWR_SEQ (00_scope.md R6, decision D11): the bytes INIT writes, in order, to power-control. The spec's own choice
for this hardware; log entry 9. -/
def Config.initPwrSeq : List Byte := [0x08#8]

/-- FREE VALUE: the list of bytes the environment makes available to a BusRead that nothing in State answers
(00_scope.md R6 BusOracle "OPEN", 20_memory.md R60: "a list `r` of bytes", "The controller assumes nothing of it").
Its arguments are the number of BusReads answered before and the event history, which "the environment (oracle) may read"
(10_state.md R32). It has no body: nothing can be proved of its value. Log entry 3. -/
opaque Config.busAnswer : Nat → List BusEvent → List Byte

end Sys2Proof
end

