-- ==== Sys2Proof/Syntax.lean ====
section
/-! DEFINITION. The nine commands of 30_encoding.md R73 with their decoded operands (R74, R76), one constructor per row of
spec/opcode_table.json. -/

namespace Sys2Proof

/-- A decoded command. -/
inductive Instr where
  /-- WRREG reg, imm (40_bus_transaction_layer.md R103) -/
  | wrreg (reg : DevReg) (value : Byte)
  /-- RDREG reg (40_bus_transaction_layer.md R104) -/
  | rdreg (reg : DevReg)
  /-- INIT (41_device_session.md R120) -/
  | init
  /-- SETRANGE imm (41_device_session.md R121); all 256 codes are legal, the command masks them itself (R74) -/
  | setrange (code : Byte)
  /-- SETTAPXYZ x, y, z (41_device_session.md R122) -/
  | settapxyz (x y z : Bool)
  /-- SETTAPTHR imm (41_device_session.md R123) -/
  | settapthr (value : Byte)
  /-- SETTAPDUR imm (41_device_session.md R124) -/
  | settapdur (value : Byte)
  /-- SETINTEN imm (41_device_session.md R125); the eight flags already packed (R74) -/
  | setinten (flags : Byte)
  /-- GETINTSRC (41_device_session.md R126) -/
  | getintsrc
deriving DecidableEq, Repr

end Sys2Proof
end

