-- ==== Sys2Proof/WellFormed.lean ====
section
/-! DEFINITION. Well-formedness. Every term of `Instr` is well formed by its types: a register operand is one of the eight
names, an immediate is a byte, an axis is a boolean (30_encoding.md R72, R74), so no term names an operand the encoding lacks.
What can be ill formed is an assembler line as 30_encoding.md R79 writes it, whose immediates and booleans are numbers. -/

namespace Sys2Proof

/-- One line of the assembler syntax of 30_encoding.md R79: register operands are names, immediates and booleans numbers. -/
inductive AsmLine where
  | wrreg (reg : DevReg) (imm : Nat)
  | rdreg (reg : DevReg)
  | init
  | setrange (imm : Nat)
  | settapxyz (x y z : Nat)
  | settapthr (imm : Nat)
  | settapdur (imm : Nat)
  | setinten (imm : Nat)
  | getintsrc
deriving DecidableEq, Repr

/-- "Immediates are `0x..`, `0b..` or decimal, 0 to 255" (30_encoding.md R79). -/
def immediateOk (imm : Nat) : Bool := decide (imm ≤ 255)

/-- "Booleans are `0` or `1`" (30_encoding.md R79). -/
def booleanOk (b : Nat) : Bool := decide (b ≤ 1)

/-- The checks of 30_encoding.md R79 on one line. -/
def AsmLine.wellFormed : AsmLine → Bool
  | .wrreg _ imm => immediateOk imm
  | .rdreg _ => true
  | .init => true
  | .setrange imm => immediateOk imm
  | .settapxyz x y z => booleanOk x && booleanOk y && booleanOk z
  | .settapthr imm => immediateOk imm
  | .settapdur imm => immediateOk imm
  | .setinten imm => immediateOk imm
  | .getintsrc => true

end Sys2Proof
end

