-- ==== Sys2Proof/Decode.lean ====
section
/-! DEFINITION. The decoder (30_encoding.md R76: "the only decoder"), the opcode map as a table of masks (R73), then the
encoder (R71, R72), the assembler (R79) and the host's reading of a table word. -/

namespace Sys2Proof

/-- What a word decodes to: a command, or `Illegal(w)` by name (30_encoding.md R75, R76). -/
inductive Decoded where
  | command (i : Instr)
  | illegal (w : Word)
deriving DecidableEq, Repr

/-- The 3-bit selector of a device register (30_encoding.md R72). -/
def DevReg.rsel : DevReg → BitVec 3
  | .pwr => 0b000#3
  | .fmt => 0b001#3
  | .thr => 0b010#3
  | .dur => 0b011#3
  | .axes => 0b100#3
  | .inten => 0b101#3
  | .intsrc => 0b110#3
  | .id => 0b111#3

/-- The device register a selector names (30_encoding.md R72): all eight values name one. -/
def DevReg.ofRsel (sel : BitVec 3) : DevReg :=
  match sel.toFin with
  | 0 => .pwr
  | 1 => .fmt
  | 2 => .thr
  | 3 => .dur
  | 4 => .axes
  | 5 => .inten
  | 6 => .intsrc
  | 7 => .id

/-- Field `rsel` of format C16: bits 10:8 (30_encoding.md R71). -/
def rselField (w : Word) : BitVec 3 := w.extractLsb' 8 3

/-- Field `imm8` of format C16: bits 7:0 (30_encoding.md R71). -/
def imm8Field (w : Word) : Byte := w.extractLsb' 0 8

/-- The decode function of 30_encoding.md R76, test by test. -/
def decode (w : Word) : Decoded :=
  if w &&& 0xF800#16 = 0x0000#16 then .command (.wrreg (DevReg.ofRsel (rselField w)) (imm8Field w))
  else if w &&& 0xF8FF#16 = 0x1000#16 then .command (.rdreg (DevReg.ofRsel (rselField w)))
  else if w = 0x2000#16 then .command .init
  else if w &&& 0xFF00#16 = 0x3000#16 then .command (.setrange (imm8Field w))
  else if w &&& 0xFFF8#16 = 0x4000#16 then .command (.settapxyz (w.getLsbD 2) (w.getLsbD 1) (w.getLsbD 0))
  else if w &&& 0xFF00#16 = 0x5000#16 then .command (.settapthr (imm8Field w))
  else if w &&& 0xFF00#16 = 0x6000#16 then .command (.settapdur (imm8Field w))
  else if w &&& 0xFF00#16 = 0x7000#16 then .command (.setinten (imm8Field w))
  else if w = 0x8000#16 then .command .getintsrc
  else .illegal w

/-- Whether a word is a command (30_encoding.md R75). -/
def Decoded.isCommand : Decoded → Bool
  | .command _ => true
  | .illegal _ => false

/-- The opcode map of 30_encoding.md R73: (mask, match) of the nine rows, in the table's order. -/
def opcodeRows : List (Word × Word) :=
  [(0xF800#16, 0x0000#16), (0xF8FF#16, 0x1000#16), (0xFFFF#16, 0x2000#16), (0xFF00#16, 0x3000#16),
   (0xFFF8#16, 0x4000#16), (0xFF00#16, 0x5000#16), (0xFF00#16, 0x6000#16), (0xFF00#16, 0x7000#16),
   (0xFFFF#16, 0x8000#16)]

/-- "a word `w` is the command exactly when `(w & mask) == match`" (30_encoding.md R73). -/
def rowMatches (w : Word) (row : Word × Word) : Bool := w &&& row.1 == row.2

/-- The row number of a command in 30_encoding.md R73, which is also its operation code `op`. -/
def Instr.op : Instr → BitVec 4
  | .wrreg _ _ => 0x0#4
  | .rdreg _ => 0x1#4
  | .init => 0x2#4
  | .setrange _ => 0x3#4
  | .settapxyz _ _ _ => 0x4#4
  | .settapthr _ => 0x5#4
  | .settapdur _ => 0x6#4
  | .setinten _ => 0x7#4
  | .getintsrc => 0x8#4

/-- Format C16: op[15:12], the reserved bit z[11] = 0, rsel[10:8], imm8[7:0] (30_encoding.md R71). -/
def formatC16 (op : BitVec 4) (rsel : BitVec 3) (imm8 : Byte) : Word := op ++ 0#1 ++ rsel ++ imm8

/-- One boolean as a byte: `zext_8` of a 1-bit value (00_scope.md R9, R10). -/
def bitByte (b : Bool) : Byte := (BitVec.ofBool b).setWidth 8

/-- x in bit 2, y in bit 1, z in bit 0 (30_encoding.md R74). -/
def axesImm (x y z : Bool) : Byte := (bitByte x <<< 2) ||| (bitByte y <<< 1) ||| bitByte z

/-- The word of a command, from 30_encoding.md R71 to R74: fields the command does not use are 0. -/
def encode (i : Instr) : Word :=
  match i with
  | .wrreg r v => formatC16 i.op r.rsel v
  | .rdreg r => formatC16 i.op r.rsel 0x00#8
  | .init => formatC16 i.op 0#3 0x00#8
  | .setrange code => formatC16 i.op 0#3 code
  | .settapxyz x y z => formatC16 i.op 0#3 (axesImm x y z)
  | .settapthr v => formatC16 i.op 0#3 v
  | .settapdur v => formatC16 i.op 0#3 v
  | .setinten f => formatC16 i.op 0#3 f
  | .getintsrc => formatC16 i.op 0#3 0x00#8

/-- The command an assembler line stands for (30_encoding.md R79, R74). -/
def AsmLine.toInstr : AsmLine → Instr
  | .wrreg r imm => .wrreg r (BitVec.ofNat 8 imm)
  | .rdreg r => .rdreg r
  | .init => .init
  | .setrange imm => .setrange (BitVec.ofNat 8 imm)
  | .settapxyz x y z => .settapxyz (x != 0) (y != 0) (z != 0)
  | .settapthr imm => .settapthr (BitVec.ofNat 8 imm)
  | .settapdur imm => .settapdur (BitVec.ofNat 8 imm)
  | .setinten imm => .setinten (BitVec.ofNat 8 imm)
  | .getintsrc => .getintsrc

/-- The word of an assembler line, by the arithmetic of 30_encoding.md R79's table. -/
def AsmLine.word : AsmLine → Nat
  | .wrreg r imm => 0x0000 ||| (r.rsel.toNat <<< 8) ||| imm
  | .rdreg r => 0x1000 ||| (r.rsel.toNat <<< 8)
  | .init => 0x2000
  | .setrange imm => 0x3000 ||| imm
  | .settapxyz x y z => 0x4000 ||| (x <<< 2) ||| (y <<< 1) ||| z
  | .settapthr imm => 0x5000 ||| imm
  | .settapdur imm => 0x6000 ||| imm
  | .setinten imm => 0x7000 ||| imm
  | .getintsrc => 0x8000

/-- The 16-bit word on the command port whose low `nbits` bits are `w` (bits above them 0). -/
def tableWord (nbits w : Nat) : Word := BitVec.ofNat 16 (w % 2 ^ nbits)

/-- The instruction the decoder reads from a word of spec/opcode_table.json. -/
def decodeTableWord (nbits w : Nat) : Option Instr :=
  match decode (tableWord nbits w) with
  | .command i => some i
  | .illegal _ => none

end Sys2Proof
end

