-- ==== Sys2Proof/Machine/State.lean ====
section
/-! DEFINITION. The state of the model as plain data: the controller's five items (10_state.md R20), the event history (R32)
and the response log (70_reset_and_hazards.md R195), the host's inputs still to come (R194) and the environment
(20_memory.md R60, R61). Then the reasons a step can stop, and the state after reset (10_state.md R33). -/

namespace Sys2Proof.Machine

/-- SEQ: `Idle`, or `Run(cmd, k)` with `k` the next micro-step (10_state.md R23); "width unbounded in the model" (R28). -/
inductive Seq where
  | idle
  | run (cmd : Instr) (k : Nat)
deriving DecidableEq, Repr

/-- The kinds of a response (30_encoding.md R83); their codes are `RespKind.code`. -/
inductive RespKind where
  | ok
  | illegal
  | notReady
deriving DecidableEq, Repr

/-- RESP, the response port register (10_state.md R20, R25). With `valid` = false, `kind` and `data` hold no value the host
may use: `State.response` answers none then. -/
structure Resp where
  valid : Bool
  kind : BitVec 2
  data : Byte
deriving DecidableEq, Repr

/-- A register space as a list of (offset, byte) in canonical form (`Memory.wf`). -/
abbrev Memory := List Host.Cell

/-- The reference device of 95_test_vectors.md section 0 (decision D25), a fixture: its registers DEV, its register pointer
PTR and its two switches. -/
structure Device where
  regs : Memory
  ptr : Byte
  present : Bool
  clearIntOnRead : Bool
deriving DecidableEq, Repr

/-- What is on the bus: something nothing is known of, or the reference device. -/
inductive BusDevice where
  | unknown
  | reference (d : Device)
deriving DecidableEq, Repr

/-- One move of the environment between two micro-steps (20_memory.md R61, 70_reset_and_hazards.md R187): another master or
the device itself changes a device register, or another master selects a register. -/
inductive EnvMove where
  | setRegister (off v : Byte)
  | selectRegister (off : Byte)
deriving DecidableEq, Repr

/-- The environment (00_scope.md R8). `overrides` holds the answers to the coming BusReads, first one first (`none`: what
is on the bus answers); past its end what is on the bus answers. `moves` holds, for each coming step of the machine, what the
environment does before it; past its end it does nothing. `reads` counts the BusReads answered. -/
structure Environment where
  device : BusDevice
  overrides : List (Option (List Byte))
  moves : List (List EnvMove)
  reads : Nat
deriving DecidableEq, Repr

/-- What the host does next (70_reset_and_hazards.md R194). -/
inductive HostInput where
  /-- it presents a word, which waits until Idle -/
  | word (w : Word)
  /-- it waits for Idle and asserts reset, as R194 asks ("assert it only at Idle") -/
  | reset
  /-- it asserts reset at once, Idle or not (R181) -/
  | resetNow
deriving DecidableEq, Repr

/-- The state of the model. -/
structure State where
  /-- ERR, the error flag (10_state.md R21) -/
  err : Bool
  /-- BUSUP (10_state.md R22) -/
  busup : Bool
  /-- SEQ (10_state.md R23) -/
  seq : Seq
  /-- T, the working register (10_state.md R24) -/
  t : Byte
  /-- RESP (10_state.md R25) -/
  resp : Resp
  /-- the event history, oldest first (10_state.md R32) -/
  history : List BusEvent
  /-- every response given, oldest first (70_reset_and_hazards.md R195: "the list of responses in order") -/
  responses : List (BitVec 2 × Byte)
  /-- what the host has yet to do, first thing first -/
  host : List HostInput
  /-- the environment -/
  env : Environment
deriving DecidableEq, Repr

/-- The reasons a step stops with a fault. -/
inductive Fault where
  /-- Raised by `commandStep` when SEQ names a micro-step its command does not have (10_state.md R23 gives every command a
  fixed list of steps). Safe: no run reaches it (`State.inv`). Log entry 12. -/
  | noSuchMicroStep
deriving DecidableEq, Repr

/-- The reasons a step has no meaning. -/
inductive Refusal where
  /-- Raised by `exec` for an instruction that has no meaning yet; no arm does. Safe. -/
  | notModelled (mnemonic : String)
  /-- Raised by `step` when the host asserts reset while a command is in flight: "refuses a run that resets mid-command"
  (70_reset_and_hazards.md R181, decision D18). Safe. -/
  | resetMidCommand
deriving DecidableEq, Repr

/-- The environment of the reset state: nothing is known of what is on the bus, every answer is free, no move is planned.
Log entries 3, 4 and 5. -/
def Environment.initial : Environment :=
  { device := .unknown, overrides := [], moves := [], reads := 0 }

/-- The machine right after hardware reset (10_state.md R33). T, RESP.kind and RESP.data have no reset value in the spec;
the values here are log entries 1 and 2. -/
def State.reset : State :=
  { err := false, busup := false, seq := .idle, t := 0x00#8,
    resp := { valid := false, kind := 0b00#2, data := 0x00#8 },
    history := [], responses := [], host := [], env := Environment.initial }

end Sys2Proof.Machine
end

