-- ==== Sys2Proof/Machine/Device.lean ====
section
/-! DEFINITION. The environment's side of the bus: the register space as canonical memory (20_memory.md R40 (b)), the
reference device of 95_test_vectors.md section 0, the environment's moves (20_memory.md R61) and its answers (R60). None of
it is the controller: a claim about a read value rests on a premise about this part. -/

namespace Sys2Proof.Machine

/-- What a register of the reference device reads as when nothing lists it: "every other byte 0x00"
(95_test_vectors.md section 0, a fixture, decision D25). Log entry 14. -/
def Memory.unlisted : Byte := 0x00#8

/-- The canonical form: offsets strictly rising and below 256, no entry equal to what an unlisted offset reads as. -/
abbrev Memory.wf (m : Memory) : Prop :=
  m.Pairwise (fun c d => c.1 < d.1) ∧ ∀ c ∈ m, c.1 < 256 ∧ c.2 ≠ Memory.unlisted

/-- The byte at an offset. -/
def Memory.read : Memory → Nat → Byte
  | [], _ => Memory.unlisted
  | c :: m, a => if c.1 = a then c.2 else Memory.read m a

/-- The memory with no entry at an offset. -/
def Memory.erase (m : Memory) (a : Nat) : Memory := m.filter (fun c => c.1 != a)

/-- The memory with one entry at an offset, kept in rising order. -/
def Memory.insert : Memory → Nat → Byte → Memory
  | [], a, v => [(a, v)]
  | c :: m, a, v =>
    if a < c.1 then (a, v) :: c :: m
    else if c.1 = a then (a, v) :: m
    else c :: Memory.insert m a v

/-- `DEV[a] <- v`, keeping the canonical form. -/
def Memory.write (m : Memory) (a : Nat) (v : Byte) : Memory :=
  if v = Memory.unlisted then m.erase a else m.insert a v

/-- The register at an 8-bit offset. -/
def Device.reg (d : Device) (off : Byte) : Byte := d.regs.read off.toNat

/-- `DEV[off] <- v`. -/
def Device.setReg (d : Device) (off v : Byte) : Device := { d with regs := d.regs.write off.toNat v }

/-- The fixture's start (95_test_vectors.md section 0): present, no clear on read, device-ID 0xE5, every other byte 0x00.
The section gives PTR no start value; log entry 15. -/
def Device.standard : Device :=
  { regs := [(0, 0xE5#8)], ptr := 0x00#8, present := true, clearIntOnRead := false }

/-- Whether the measure bit of power-control is set: the device is Measuring (20_memory.md R42, 41_device_session.md R129).
Log entry 19. -/
def Device.measuring (d : Device) : Bool := (d.reg Config.offPwr).getLsbD 3

/-- A write frame at the reference device: `[off, v]` sets a register and the pointer, `[off]` the pointer, and an absent
device does nothing (95_test_vectors.md section 0). -/
def Device.onWrite (d : Device) (bytes : List Byte) : Device :=
  if d.present then
    match bytes with
    | [off, v] => { d.setReg off v with ptr := off }
    | [off] => { d with ptr := off }
    | _ => d
  else d

/-- The reference device's answer to a one-byte read (95_test_vectors.md section 0). -/
def Device.answer (d : Device) : List Byte := if d.present then [d.reg d.ptr] else []

/-- What a one-byte read does to the reference device: interrupt-source is cleared when its switch says so. -/
def Device.onRead (d : Device) : Device :=
  if d.present && d.clearIntOnRead && d.ptr == Config.offIntsrc then d.setReg Config.offIntsrc 0x00#8 else d

/-- One move of the environment at the reference device (20_memory.md R61). -/
def Device.move (d : Device) (mv : EnvMove) : Device :=
  match mv with
  | .setRegister off v => d.setReg off v
  | .selectRegister off => { d with ptr := off }

/-- A move of the environment; at an unknown device nothing of it is known. -/
def BusDevice.move (b : BusDevice) (mv : EnvMove) : BusDevice :=
  match b with
  | .unknown => .unknown
  | .reference d => .reference (d.move mv)

/-- The environment after a write frame. A device hears the frames that carry its own address. -/
def Environment.onWrite (e : Environment) (a : BusAddr) (bytes : List Byte) : Environment :=
  match e.device with
  | .unknown => e
  | .reference d => if a = Config.devAddr then { e with device := .reference (d.onWrite bytes) } else e

/-- What is on the bus answers a read of `n` bytes at address `a`; where the fixture says nothing the answer is free. -/
def Environment.busAnswer (e : Environment) (h : List BusEvent) (a : BusAddr) (n : Nat) : List Byte :=
  match e.device with
  | .unknown => Config.busAnswer e.reads h
  | .reference d =>
    if a = Config.devAddr ∧ n = Config.readLength then d.answer else Config.busAnswer e.reads h

/-- The list of bytes the environment returns to a BusRead after the history `h` (20_memory.md R60): an override when one
is given for this read, else the answer of what is on the bus. -/
def Environment.answer (e : Environment) (h : List BusEvent) (a : BusAddr) (n : Nat) : List Byte :=
  match e.overrides with
  | some r :: _ => r
  | none :: _ => e.busAnswer h a n
  | [] => e.busAnswer h a n

/-- What a read does to what is on the bus, when no override answers it. -/
def BusDevice.onRead (b : BusDevice) (a : BusAddr) (n : Nat) : BusDevice :=
  match b with
  | .unknown => .unknown
  | .reference d => if a = Config.devAddr ∧ n = Config.readLength then .reference d.onRead else .reference d

/-- Whether an override answers the next read. -/
def Environment.overridden (e : Environment) : Bool :=
  match e.overrides with
  | some _ :: _ => true
  | none :: _ => false
  | [] => false

/-- The environment after a BusRead. -/
def Environment.afterRead (e : Environment) (a : BusAddr) (n : Nat) : Environment :=
  { e with device := if e.overridden then e.device else e.device.onRead a n,
           overrides := e.overrides.tail, reads := e.reads + 1 }

/-- The moves the environment makes before one step of the machine (20_memory.md R61): the first list of `moves`. -/
def Environment.advance (e : Environment) : Environment :=
  { e with device := (e.moves.headD []).foldl BusDevice.move e.device, moves := e.moves.tail }

end Sys2Proof.Machine
end

