-- ==== Sys2Proof/Machine/Flags.lean ====
section
/-! DEFINITION. The one flag computation: ERR after a read transaction (10_state.md R21, 40_bus_transaction_layer.md R102). -/

namespace Sys2Proof.Machine

/-- BUS_READ_FAILURE: "the BusRead returned a list whose length is not 1" (60_exceptions.md R151, 20_memory.md R60). -/
def readFailed (r : List Byte) : Bool := r.length != Config.readLength

/-- ERR after a read frame: 1 on failure, else unchanged ("a successful ReadTxn does not clear it", 10_state.md R21). -/
def errAfterRead (err : Bool) (r : List Byte) : Bool := err || readFailed r

end Sys2Proof.Machine
end

