-- ==== Sys2Proof/Machine/Operands.lean ====
section
/-! DEFINITION. Operand forms: the offset of a selected register (30_encoding.md R72), the operand computations of the
commands (R74, 41_device_session.md R121, R122, R125, R127), the byte a read transaction yields
(40_bus_transaction_layer.md R102) and the response codes (30_encoding.md R83). -/

namespace Sys2Proof

/-- OFFSET(rsel) (30_encoding.md R72). -/
def DevReg.offset : DevReg → Byte
  | .pwr => Config.offPwr
  | .fmt => Config.offFmt
  | .thr => Config.offThr
  | .dur => Config.offDur
  | .axes => Config.offAxes
  | .inten => Config.offInten
  | .intsrc => Config.offIntsrc
  | .id => Config.offId

namespace Machine

/-- The code of a response kind (30_encoding.md R83); 0b11 is never produced. -/
def RespKind.code : RespKind → BitVec 2
  | .ok => 0b00#2
  | .illegal => 0b01#2
  | .notReady => 0b10#2

/-- `c <- code & 0x03` (41_device_session.md R121). -/
def rangeCode (code : Byte) : Byte := code &&& 0x03#8

/-- `m <- (zext_8(x) << 2) | (zext_8(y) << 1) | zext_8(z)` (41_device_session.md R122). -/
def tapMask (x y z : Bool) : Byte := (bitByte x <<< 2) ||| (bitByte y <<< 1) ||| bitByte z

/-- `(T & ~M) | n`: the value a read-modify-write writes back (41_device_session.md R127). -/
def mergeBits (t m n : Byte) : Byte := (t &&& ~~~m) ||| n

/-- The owned bits of data-format: its low 2 bits (20_memory.md R45, 41_device_session.md R121). -/
def rangeOwnedBits : Byte := 0x03#8

/-- The owned bits of tap-axes: its low 3 bits (20_memory.md R46, 41_device_session.md R122). -/
def axesOwnedBits : Byte := 0x07#8

/-- The eight flags of setInterruptEnable packed "into their fixed bit positions" (41_device_session.md R125,
20_memory.md R43): data-ready 7, single-tap 6, double-tap 5, activity 4, inactivity 3, free-fall 2, watermark 1, overrun 0. -/
def packIntFlags (dataReady singleTap doubleTap activity inactivity freeFall watermark overrun : Bool) : Byte :=
  (bitByte dataReady <<< 7) ||| (bitByte singleTap <<< 6) ||| (bitByte doubleTap <<< 5) ||| (bitByte activity <<< 4) |||
    (bitByte inactivity <<< 3) ||| (bitByte freeFall <<< 2) ||| (bitByte watermark <<< 1) ||| bitByte overrun

/-- The byte ReadTxn yields: "If exactly one byte is available, returns it", else the sentinel
(40_bus_transaction_layer.md R102). -/
def readByte (r : List Byte) : Byte :=
  match r with
  | [b] => b
  | _ => Config.sentinel

/-- INIT's response data: "if T == 0xE5 then 0x01 else 0x00" (41_device_session.md R120). -/
def identityResult (t : Byte) : Byte := if t = Config.devIdExpect then 0x01#8 else 0x00#8

end Machine

end Sys2Proof
end

