-- ==== Sys2Proof/Machine/Ops.lean ====
section
/-! DEFINITION. The named operations every meaning is made of: the bus port (20_memory.md R59), the two transaction primitives
(40_bus_transaction_layer.md R101, R102), the response and the two refusals (R100, 60_exceptions.md R153), the micro-steps,
the command cycle (R100), reset (10_state.md R33) and the outputs the host sees (R29). The controller has no trap to take or
return from (60_exceptions.md R156, R157); the refusals and ERR are what stands in their place. -/

namespace Sys2Proof.Machine

/-- `BusStartup()`: one event, no frame (20_memory.md R59). -/
def busStartup (s : State) : State := { s with history := s.history ++ [.startup] }

/-- `BusWrite(a, bytes)`: one write frame; "the controller observes no outcome" (20_memory.md R59). -/
def busWrite (a : BusAddr) (bytes : List Byte) (s : State) : State :=
  { s with history := s.history ++ [.write a bytes], env := s.env.onWrite a bytes }

/-- The list of bytes the environment gives to `BusRead(a, n)` now (20_memory.md R60). -/
def busReadAnswer (a : BusAddr) (n : Nat) (s : State) : List Byte := s.env.answer s.history a n

/-- `BusRead(a, n)`: one read frame (20_memory.md R59). -/
def busRead (a : BusAddr) (n : Nat) (s : State) : State :=
  { s with history := s.history ++ [.read a n (busReadAnswer a n s)], env := s.env.afterRead a n }

/-- WriteTxn(off, v): one register-write frame; no controller state is written (40_bus_transaction_layer.md R101). -/
def writeTxn (off v : Byte) (s : State) : State := busWrite Config.devAddr [off, v] s

/-- ReadTxn step a: the offset frame, "outcome not examined" (40_bus_transaction_layer.md R102). -/
def readTxnOffset (off : Byte) (s : State) : State := busWrite Config.devAddr [off] s

/-- ReadTxn step b: the read frame, with T and ERR written in the same micro-step (40_bus_transaction_layer.md R102). -/
def readTxnByte (s : State) : State :=
  { busRead Config.devAddr Config.readLength s with
    t := readByte (busReadAnswer Config.devAddr Config.readLength s)
    err := errAfterRead s.err (busReadAnswer Config.devAddr Config.readLength s) }

/-- `respond(kind, data)`: RESP <- (valid = 1, kind, data); SEQ <- Idle (40_bus_transaction_layer.md R100). -/
def respond (kind : RespKind) (data : Byte) (s : State) : State :=
  { s with resp := { valid := true, kind := kind.code, data := data },
           responses := s.responses ++ [(kind.code, data)], seq := .idle }

/-- `refuse K`: `respond(K, 0x00)`, "no bus primitive; ERR, BUSUP, T unchanged" (40_bus_transaction_layer.md R100). -/
def refuse (kind : RespKind) (s : State) : State := respond kind 0x00#8 s

/-- The micro-steps the commands are made of (20_memory.md R59: each performs at most one bus primitive). -/
inductive MicroStep where
  /-- `ERR <- 0` (INIT step 0) -/
  | clearErr
  /-- `BusStartup(); BUSUP <- 1` (INIT step 1) -/
  | startBus
  /-- WriteTxn(off, v) -/
  | write (off v : Byte)
  /-- ReadTxn step a -/
  | offsetFrame (off : Byte)
  /-- ReadTxn step b -/
  | readFrame
  /-- step 2 of RMW(off, M, n): WriteTxn(off, (T & ~M) | n) -/
  | writeMerged (off m n : Byte)
deriving DecidableEq, Repr

/-- What one micro-step does, SEQ and RESP apart. -/
def MicroStep.perform (m : MicroStep) (s : State) : State :=
  match m with
  | .clearErr => { s with err := false }
  | .startBus => { busStartup s with busup := true }
  | .write off v => writeTxn off v s
  | .offsetFrame off => readTxnOffset off s
  | .readFrame => readTxnByte s
  | .writeMerged off m n => writeTxn off (mergeBits s.t m n) s

/-- ReadTxn(off): two micro-steps, a then b (40_bus_transaction_layer.md R102). -/
def readTxn (off : Byte) : List MicroStep := [.offsetFrame off, .readFrame]

/-- RMW(off, M, n): three micro-steps; the write follows "whether or not the read succeeded" (41_device_session.md R127). -/
def readModifyWrite (off m n : Byte) : List MicroStep := readTxn off ++ [.writeMerged off m n]

/-- The part of `accept(w)` common to every word: RESP.valid <- 0 (40_bus_transaction_layer.md R100), and the word leaves
the host. Kind and data of RESP keep their contents, which hold no value now (log entry 2). -/
def takeWord (s : State) : State :=
  { s with host := s.host.tail, resp := { s.resp with valid := false } }

/-- `accept(w)` for a word that decodes to the command `i`: refused NOTREADY, or SEQ <- Run(i, 0)
(40_bus_transaction_layer.md R100). -/
def acceptCommand (i : Instr) (s : State) : State :=
  if i ≠ .init ∧ s.busup = false then refuse .notReady (takeWord s)
  else { takeWord s with seq := .run i 0 }

/-- `accept(w)` for an illegal word: refused ILLEGAL, whatever BUSUP (40_bus_transaction_layer.md R100,
60_exceptions.md R155). -/
def acceptIllegal (s : State) : State := refuse .illegal (takeWord s)

/-- One atomic step of the command `i` whose micro-steps are `steps` and whose response data is `result` of T: its acceptance
at Idle, else micro-step k, after which SEQ <- Run(i, k+1), or `respond(OK, data)` if it was the last
(40_bus_transaction_layer.md R100, 10_state.md R23). -/
def commandStep (i : Instr) (steps : List MicroStep) (result : Byte → Byte) (s : State) :
    Host.Outcome State Fault Refusal :=
  match s.seq with
  | .idle => .next (acceptCommand i s)
  | .run _ k =>
    match steps[k]? with
    | none => .fault .noSuchMicroStep
    | some m =>
      if k + 1 = steps.length then .next (respond .ok (result (m.perform s).t) (m.perform s))
      else .next { m.perform s with seq := .run i (k + 1) }

/-- Response data 0x00: "every other command: 0x00" (30_encoding.md R83). -/
def noData (_ : Byte) : Byte := 0x00#8

/-- Response data T: the byte ReadTxn returned (30_encoding.md R83). -/
def dataT (t : Byte) : Byte := t

/-- Hardware reset at Idle (10_state.md R33): the controller takes its reset values, the event history is empty, and
"Reset changes nothing in the environment". The host goes on with what it has yet to do. -/
def hardwareReset (s : State) : State := { State.reset with host := s.host, env := s.env }

/-- The moves of the environment before a step (20_memory.md R61). -/
def environmentMoves (s : State) : State := { s with env := s.env.advance }

/-- What the controller does next. -/
inductive Action where
  /-- Idle and nothing on the command port -/
  | wait
  /-- a step of a command: its acceptance, or its next micro-step -/
  | command (i : Instr)
  /-- a word that names no command is refused -/
  | illegal
  /-- reset at Idle -/
  | reset
  /-- reset asserted while a command is in flight -/
  | resetMidCommand
deriving DecidableEq, Repr

/-- The command port at Idle (40_bus_transaction_layer.md R100). -/
def portAction (s : State) : Action :=
  match s.host with
  | [] => .wait
  | .reset :: _ => .reset
  | .resetNow :: _ => .reset
  | .word w :: _ =>
    match decode w with
    | .command i => .command i
    | .illegal _ => .illegal

/-- What comes next: at Idle the port decides; while a command is in flight its next micro-step, "While SEQ is not Idle no
word is accepted" (40_bus_transaction_layer.md R100), unless the host asserts reset (70_reset_and_hazards.md R181). -/
def nextAction (s : State) : Action :=
  match s.seq with
  | .idle => portAction s
  | .run c _ =>
    match s.host with
    | .resetNow :: _ => .resetMidCommand
    | _ => .command c

/-- The reset input is taken and the controller resets. -/
def takeReset (s : State) : State := hardwareReset { s with host := s.host.tail }

/-- The state in which a word is the next thing on the command port of an idle controller. -/
def presentWord (w : Word) (s : State) : State := { s with seq := .idle, host := .word w :: s.host }

/-- `err_o` = ERR (10_state.md R29). -/
def State.errO (s : State) : Bool := s.err

/-- `busy_o` = (SEQ is not Idle) (10_state.md R29). -/
def State.busyO (s : State) : Bool :=
  match s.seq with
  | .idle => false
  | .run _ _ => true

/-- `resp_valid_o` = RESP.valid (10_state.md R29). -/
def State.respValidO (s : State) : Bool := s.resp.valid

/-- `resp_kind_o` and `resp_data_o` (10_state.md R29): "with valid = 0 kind and data hold no value" (R25). -/
def State.response (s : State) : Option (BitVec 2 × Byte) :=
  if s.resp.valid then some (s.resp.kind, s.resp.data) else none

end Sys2Proof.Machine
end

