-- ==== Sys2Proof/Machine/BusLayer.lean ====
section
/-! DEFINITION. The Bus Transaction Layer (40_bus_transaction_layer.md): WRREG and RDREG. -/

namespace Sys2Proof.Machine

/-- WRREG reg, value (40_bus_transaction_layer.md R103): step 0 WriteTxn(OFFSET(rsel), value), respond(OK, 0x00). -/
def execWrreg (reg : DevReg) (value : Byte) (s : State) : Host.Outcome State Fault Refusal :=
  commandStep (.wrreg reg value) [.write reg.offset value] noData s

/-- RDREG reg (40_bus_transaction_layer.md R104): ReadTxn(OFFSET(rsel)), respond(OK, T). -/
def execRdreg (reg : DevReg) (s : State) : Host.Outcome State Fault Refusal :=
  commandStep (.rdreg reg) (readTxn reg.offset) dataT s

end Sys2Proof.Machine
end

