-- ==== Sys2Proof/Machine/Session.lean ====
section
/-! DEFINITION. The Device Session (41_device_session.md): INIT and the six configuration commands. -/

namespace Sys2Proof.Machine

/-- INIT's micro-steps (41_device_session.md R120): clear ERR, start the bus, one write per byte of INIT_PWR_SEQ, then the
identity read. -/
def initSteps : List MicroStep :=
  [.clearErr, .startBus] ++ Config.initPwrSeq.map (MicroStep.write Config.offPwr) ++ readTxn Config.offId

/-- INIT (41_device_session.md R120): respond(OK, if T == 0xE5 then 0x01 else 0x00). -/
def execInit (s : State) : Host.Outcome State Fault Refusal :=
  commandStep .init initSteps identityResult s

/-- SETRANGE code (41_device_session.md R121): RMW(0x31, 0x03, code & 0x03), respond(OK, 0x00). -/
def execSetrange (code : Byte) (s : State) : Host.Outcome State Fault Refusal :=
  commandStep (.setrange code) (readModifyWrite Config.offFmt rangeOwnedBits (rangeCode code)) noData s

/-- SETTAPXYZ x, y, z (41_device_session.md R122): RMW(0x2A, 0x07, m), respond(OK, 0x00). -/
def execSettapxyz (x y z : Bool) (s : State) : Host.Outcome State Fault Refusal :=
  commandStep (.settapxyz x y z) (readModifyWrite Config.offAxes axesOwnedBits (tapMask x y z)) noData s

/-- SETTAPTHR value (41_device_session.md R123): WriteTxn(0x1D, value), respond(OK, 0x00). -/
def execSettapthr (value : Byte) (s : State) : Host.Outcome State Fault Refusal :=
  commandStep (.settapthr value) [.write Config.offThr value] noData s

/-- SETTAPDUR value (41_device_session.md R124): WriteTxn(0x21, value), respond(OK, 0x00). -/
def execSettapdur (value : Byte) (s : State) : Host.Outcome State Fault Refusal :=
  commandStep (.settapdur value) [.write Config.offDur value] noData s

/-- SETINTEN flags (41_device_session.md R125): WriteTxn(0x2E, flags), respond(OK, 0x00). -/
def execSetinten (flags : Byte) (s : State) : Host.Outcome State Fault Refusal :=
  commandStep (.setinten flags) [.write Config.offInten flags] noData s

/-- GETINTSRC (41_device_session.md R126): ReadTxn(0x30), respond(OK, T). -/
def execGetintsrc (s : State) : Host.Outcome State Fault Refusal :=
  commandStep .getintsrc (readTxn Config.offIntsrc) dataT s

end Sys2Proof.Machine
end

