-- ==== Sys2Proof/Machine/Dispatch.lean ====
section
/-! DEFINITION. One arm per command of 30_encoding.md R73. -/

namespace Sys2Proof.Machine

def exec (i : Instr) (s : State) : Host.Outcome State Fault Refusal :=
  match i with
  | .wrreg reg value => Sys2Proof.Machine.execWrreg reg value s
  | .rdreg reg => Sys2Proof.Machine.execRdreg reg s
  | .init => Sys2Proof.Machine.execInit s
  | .setrange code => Sys2Proof.Machine.execSetrange code s
  | .settapxyz x y z => Sys2Proof.Machine.execSettapxyz x y z s
  | .settapthr value => Sys2Proof.Machine.execSettapthr value s
  | .settapdur value => Sys2Proof.Machine.execSettapdur value s
  | .setinten flags => Sys2Proof.Machine.execSetinten flags s
  | .getintsrc => Sys2Proof.Machine.execGetintsrc s

end Sys2Proof.Machine
end

