-- ==== Sys2Proof/Machine/Step.lean ====
section
/-! DEFINITION. One atomic step of the machine: the environment may move (20_memory.md R61), then the controller accepts or
refuses a word, performs one micro-step, resets, or waits (40_bus_transaction_layer.md R100, 10_state.md R23). -/

namespace Sys2Proof.Machine

/-- What the controller does at a state, the environment's moves made. -/
def controllerStep (s : State) : Host.Outcome State Fault Refusal :=
  match nextAction s with
  | .wait => .next s
  | .command i => exec i s
  | .illegal => .next (acceptIllegal s)
  | .reset => .next (takeReset s)
  | .resetMidCommand => .refused .resetMidCommand

/-- One step. -/
def step (s : State) : Host.Outcome State Fault Refusal := controllerStep (environmentMoves s)

/-- The state in which the host presents the given table word to an idle controller, so that the next step takes it. -/
def State.withFetchWord (s : State) (nbits w : Nat) : State := presentWord (tableWord nbits w) s

end Sys2Proof.Machine
end

