-- ==== Sys2Proof/Safety.lean ====
section
/-! DEFINITION. The terms the claims use: the invariant of the controller, what a healthy bus is (20_memory.md R62), the
outcome table of 60_exceptions.md R167 written from the spec's own tables (not from the meanings), and what a step may touch. -/

namespace Sys2Proof

/-! ### The spec's tables, per command -/

/-- Micro-steps per command (70_reset_and_hazards.md R193). -/
def Instr.stepCount : Instr → Nat
  | .wrreg _ _ => 1
  | .rdreg _ => 2
  | .init => 5
  | .setrange _ => 3
  | .settapxyz _ _ _ => 3
  | .settapthr _ => 1
  | .settapdur _ => 1
  | .setinten _ => 1
  | .getintsrc => 2

/-- Frames per command (70_reset_and_hazards.md R193); INIT's startup is no frame. -/
def Instr.frameCount : Instr → Nat
  | .wrreg _ _ => 1
  | .rdreg _ => 2
  | .init => 3
  | .setrange _ => 3
  | .settapxyz _ _ _ => 3
  | .settapthr _ => 1
  | .settapdur _ => 1
  | .setinten _ => 1
  | .getintsrc => 2

/-- "Commands that can meet it: exactly those that contain a ReadTxn" (60_exceptions.md R151). -/
def Instr.reads : Instr → Bool
  | .wrreg _ _ => false
  | .rdreg _ => true
  | .init => true
  | .setrange _ => true
  | .settapxyz _ _ _ => true
  | .settapthr _ => false
  | .settapdur _ => false
  | .setinten _ => false
  | .getintsrc => true

/-- Whether an event is a frame (30_encoding.md R82); the startup is none (20_memory.md R59). -/
def BusEvent.isFrame : BusEvent → Bool
  | .startup => false
  | .write _ _ => true
  | .read _ _ _ => true

namespace Machine

/-- `W(0x53, [off, v])` (10_state.md R32). -/
def wFrame (off v : Byte) : BusEvent := .write 0x53#7 [off, v]

/-- `W(0x53, [off])` (10_state.md R32). -/
def oFrame (off : Byte) : BusEvent := .write 0x53#7 [off]

/-- `R(0x53, 1) -> r` (10_state.md R32). -/
def rFrame (r : List Byte) : BusEvent := .read 0x53#7 1 r

/-- The byte of a read: `r[0]` if `|r| = 1`, else 0x00 (40_bus_transaction_layer.md R104). -/
def byteOf (r : List Byte) : Byte := if r.length = 1 then r.headD 0x00#8 else 0x00#8

/-- "History appended" of each command (40_bus_transaction_layer.md R103, R104; 41_device_session.md R120 to R126), for the
list `r` its one read returned. -/
def expectedHistory (i : Instr) (r : List Byte) : List BusEvent :=
  match i with
  | .wrreg reg v => [wFrame reg.offset v]
  | .rdreg reg => [oFrame reg.offset, rFrame r]
  | .init => [.startup, wFrame 0x2D#8 0x08#8, oFrame 0x00#8, rFrame r]
  | .setrange code => [oFrame 0x31#8, rFrame r, wFrame 0x31#8 ((byteOf r &&& 0xFC#8) ||| (code &&& 0x03#8))]
  | .settapxyz x y z => [oFrame 0x2A#8, rFrame r, wFrame 0x2A#8 ((byteOf r &&& 0xF8#8) ||| tapMask x y z)]
  | .settapthr v => [wFrame 0x1D#8 v]
  | .settapdur v => [wFrame 0x21#8 v]
  | .setinten f => [wFrame 0x2E#8 f]
  | .getintsrc => [oFrame 0x30#8, rFrame r]

/-- Response data of each command (60_exceptions.md R167, 30_encoding.md R83). -/
def expectedData (i : Instr) (r : List Byte) : Byte :=
  match i with
  | .wrreg _ _ => 0x00#8
  | .rdreg _ => byteOf r
  | .init => if r = [0xE5#8] then 0x01#8 else 0x00#8
  | .setrange _ => 0x00#8
  | .settapxyz _ _ _ => 0x00#8
  | .settapthr _ => 0x00#8
  | .settapdur _ => 0x00#8
  | .setinten _ => 0x00#8
  | .getintsrc => byteOf r

/-- ERR after each command (60_exceptions.md R167): INIT starts from 0, every other command from what ERR was; a failed read
makes it 1. -/
def expectedErr (i : Instr) (err : Bool) (r : List Byte) : Bool :=
  match i with
  | .wrreg _ _ => err
  | .rdreg _ => err || r.length != 1
  | .init => r.length != 1
  | .setrange _ => err || r.length != 1
  | .settapxyz _ _ _ => err || r.length != 1
  | .settapthr _ => err
  | .settapdur _ => err
  | .setinten _ => err
  | .getintsrc => err || r.length != 1

/-- The register a micro-step stores to, and the value, by the spec's tables (40_bus_transaction_layer.md R103;
41_device_session.md R120 to R125): micro-step `k` of the command, `t` being what T holds. `none`: it stores nothing. -/
def storedRegister (i : Instr) (k : Nat) (t : Byte) : Option (Byte × Byte) :=
  match i with
  | .wrreg reg v => if k = 0 then some (reg.offset, v) else none
  | .rdreg _ => none
  | .init => if k = 2 then some (0x2D#8, 0x08#8) else none
  | .setrange code => if k = 2 then some (0x31#8, (t &&& 0xFC#8) ||| (code &&& 0x03#8)) else none
  | .settapxyz x y z => if k = 2 then some (0x2A#8, (t &&& 0xF8#8) ||| tapMask x y z) else none
  | .settapthr v => if k = 0 then some (0x1D#8, v) else none
  | .settapdur v => if k = 0 then some (0x21#8, v) else none
  | .setinten f => if k = 0 then some (0x2E#8, f) else none
  | .getintsrc => none

/-- The register a micro-step selects by an offset frame, by the same tables (40_bus_transaction_layer.md R104;
41_device_session.md R120, R121, R122, R126). `none`: it is no offset frame. -/
def selectedRegister (i : Instr) (k : Nat) : Option Byte :=
  match i with
  | .wrreg _ _ => none
  | .rdreg reg => if k = 0 then some reg.offset else none
  | .init => if k = 3 then some 0x00#8 else none
  | .setrange _ => if k = 0 then some 0x31#8 else none
  | .settapxyz _ _ _ => if k = 0 then some 0x2A#8 else none
  | .settapthr _ => none
  | .settapdur _ => none
  | .setinten _ => none
  | .getintsrc => if k = 0 then some 0x30#8 else none

/-- The four pairs of 30_encoding.md R80: the first command "has the same bus effect" as the second. -/
def IsAlias (a b : Instr) : Prop :=
  (∃ v, a = .settapthr v ∧ b = .wrreg .thr v) ∨ (∃ v, a = .settapdur v ∧ b = .wrreg .dur v) ∨
    (∃ f, a = .setinten f ∧ b = .wrreg .inten f) ∨ (a = .getintsrc ∧ b = .rdreg .intsrc)

/-- Where the reference device is on the bus before and after, its registers that `keep` names are what they were. -/
def registersKept (keep : Device → Byte → Prop) (b b' : BusDevice) : Prop :=
  ∀ d, b = .reference d → ∃ d', b' = .reference d' ∧ ∀ a, keep d a → d'.reg a = d.reg a

/-! ### Programs: what a list of words does, word by word -/

/-- What a presented word is: the command it runs (`some`), or a refusal (`none` with its response code)
(40_bus_transaction_layer.md R100). -/
def wordCommand (busup : Bool) (w : Word) : Except (BitVec 2) Instr :=
  match decode w with
  | .illegal _ => .error 0b01#2
  | .command i => if busup || decide (i = .init) then .ok i else .error 0b10#2

/-- The events a word adds to the history, `r` being the list its read returned (20_memory.md R54 (a)). -/
def wordHistory (busup : Bool) (w : Word) (r : List Byte) : List BusEvent :=
  match wordCommand busup w with
  | .ok i => expectedHistory i r
  | .error _ => []

/-- The response to a word (30_encoding.md R83). -/
def wordResponse (busup : Bool) (w : Word) (r : List Byte) : BitVec 2 × Byte :=
  match wordCommand busup w with
  | .ok i => (0b00#2, expectedData i r)
  | .error code => (code, 0x00#8)

/-- ERR after a word. -/
def wordErr (busup err : Bool) (w : Word) (r : List Byte) : Bool :=
  match wordCommand busup w with
  | .ok i => expectedErr i err r
  | .error _ => err

/-- BUSUP after a word. -/
def wordBusup (busup : Bool) (w : Word) : Bool := busup || decide (decode w = .command .init)

/-- What a claim may speak of at the end of a run (70_reset_and_hazards.md R195). -/
structure ProgramEnd where
  err : Bool
  busup : Bool
  responses : List (BitVec 2 × Byte)
  history : List BusEvent
deriving DecidableEq, Repr

/-- The end of the run of a list of words, each with the list its read returned. -/
def programEnd (start : ProgramEnd) : List (Word × List Byte) → ProgramEnd
  | [] => start
  | (w, r) :: ps =>
    programEnd
      { err := wordErr start.busup start.err w r, busup := wordBusup start.busup w,
        responses := start.responses ++ [wordResponse start.busup w r],
        history := start.history ++ wordHistory start.busup w r } ps

/-- What of a state a claim about a run may speak of (70_reset_and_hazards.md R195). -/
def State.visible (s : State) : ProgramEnd :=
  { err := s.err, busup := s.busup, responses := s.responses, history := s.history }

/-- A run is over "when every word has been accepted, SEQ = Idle and RESP.valid = 1" (70_reset_and_hazards.md R195). -/
def State.runOver (s : State) : Bool := s.host.isEmpty && !s.busyO && s.respValidO

/-! ### Acceptance and refusal -/

/-- The state after a word is accepted as the command `i`: RESP.valid <- 0, SEQ <- Run(i, 0), the word taken
(40_bus_transaction_layer.md R100). -/
def accepted (i : Instr) (s : State) : State :=
  { s with resp := { s.resp with valid := false }, seq := .run i 0, host := s.host.tail }

/-- The state after a word is refused at Idle with the response code `code` and data 0x00: nothing but the response changes
(60_exceptions.md R153). -/
def refusedWith (code : BitVec 2) (s : State) : State :=
  { s with resp := { valid := true, kind := code, data := 0x00#8 }, responses := s.responses ++ [(code, 0x00#8)],
           host := s.host.tail }

/-- What every command but INIT does at Idle: accepted when BUSUP = 1, else refused NOTREADY
(40_bus_transaction_layer.md R100, 10_state.md R22). -/
def acceptedOrNotReady (i : Instr) (s : State) : State := if s.busup = true then accepted i s else refusedWith 0b10#2 s

/-! ### The invariant -/

/-- One of the three frame shapes, or the startup, addressed to the one device and one of the eight offsets
(30_encoding.md R82, 20_memory.md R40, R41). -/
def BusEvent.Legal (e : BusEvent) : Prop :=
  e = .startup ∨ (∃ (reg : DevReg) (v : Byte), e = wFrame reg.offset v) ∨ (∃ reg : DevReg, e = oFrame reg.offset) ∨
    ∃ r : List Byte, e = rFrame r

/-- The registers of what is on the bus are in canonical form; nothing is known of an unknown device. -/
def BusDevice.canonical (b : BusDevice) : Prop :=
  match b with
  | .unknown => True
  | .reference d => d.regs.wf

/-- Whether a command is a read-modify-write (41_device_session.md R127). -/
def isReadModifyWrite : Instr → Bool
  | .wrreg _ _ => false
  | .rdreg _ => false
  | .init => false
  | .setrange _ => true
  | .settapxyz _ _ _ => true
  | .settapthr _ => false
  | .settapdur _ => false
  | .setinten _ => false
  | .getintsrc => false

/-- The invariant of the machine. -/
structure State.Inv (s : State) : Prop where
  /-- a command in flight is at one of its own micro-steps (10_state.md R23) -/
  stepExists : ∀ i k, s.seq = .run i k → k < i.stepCount
  /-- a command in flight has no valid response beside it (40_bus_transaction_layer.md R100) -/
  busyNotValid : ∀ i k, s.seq = .run i k → s.resp.valid = false
  /-- a command other than INIT runs only after the bus was started (10_state.md R22) -/
  readyWhenRunning : ∀ i k, s.seq = .run i k → i ≠ .init → s.busup = true
  /-- INIT's later micro-steps find the bus started (41_device_session.md R120) -/
  initStartsBus : ∀ k, s.seq = .run .init k → 2 ≤ k → s.busup = true
  /-- inside INIT, from its step 1 on, ERR is 0 until the identity read (41_device_session.md R120) -/
  initClearsErr : ∀ k, s.seq = .run .init k → 1 ≤ k → s.err = false
  /-- kind 0b11 is never produced (30_encoding.md R83) -/
  kindProduced : s.resp.kind ≠ 0b11#2
  /-- RESP holds the last response given (10_state.md R25) -/
  respIsLast : s.resp.valid = true → s.responses.getLast? = some (s.resp.kind, s.resp.data)
  /-- BUSUP is 1 exactly when the handshake is in the history since reset (10_state.md R22) -/
  busupRecords : s.busup = true ↔ BusEvent.startup ∈ s.history
  /-- nothing goes on the bus before the handshake -/
  startupFirst : s.history = [] ∨ s.history.head? = some .startup
  /-- only the three frame shapes ever go on the bus (30_encoding.md R82) -/
  framesLegal : ∀ e ∈ s.history, BusEvent.Legal e
  /-- before a read frame the history ends with an offset frame (40_bus_transaction_layer.md R102) -/
  offsetBeforeRead : ∀ i, s.seq = .run i 1 → i.reads = true → i ≠ .init →
    ∃ off, s.history.getLast? = some (oFrame off)
  /-- where the write of a read-modify-write reads T, T is the byte of the read just made (10_state.md R24) -/
  tIsTheByteRead : ∀ i, s.seq = .run i 2 → isReadModifyWrite i = true →
    ∃ r, s.history.getLast? = some (rFrame r) ∧ s.t = byteOf r
  /-- the device's registers are in canonical form -/
  memoryCanonical : BusDevice.canonical s.env.device

/-! ### The healthy bus (20_memory.md R62) -/

/-- What a healthy bus implies about the device: the content of every register, and the register selected for the next
read (`none`: the premise does not say which; log entry 21). -/
structure DeviceView where
  regs : Byte → Byte
  sel : Option Byte

/-- H-a and H-b of 20_memory.md R62: what a frame to the device does to it. -/
def DeviceView.after (v : DeviceView) (e : BusEvent) : DeviceView :=
  match e with
  | .startup => v
  | .write a bytes =>
    if a = Config.devAddr then
      match bytes with
      | [off, b] => { regs := fun o => if o = off then b else v.regs o, sel := none }
      | [off] => { v with sel := some off }
      | _ => v
    else v
  | .read _ _ _ => v

/-- H-c of 20_memory.md R62: "returns the one-element list holding the current value of the selected register". -/
def DeviceView.Answers (v : DeviceView) (e : BusEvent) : Prop :=
  match e with
  | .startup => True
  | .write _ _ => True
  | .read a n r =>
    a = Config.devAddr → n = Config.readLength →
      match v.sel with
      | some off => r = [v.regs off]
      | none => ∃ b, r = [b]

/-- The bus is healthy over a stretch of history that starts at the device `v`. H-d (no environment step) is in it, because
only frames change the view. -/
def HealthyTrace (v : DeviceView) : List BusEvent → Prop
  | [] => True
  | e :: es => v.Answers e ∧ HealthyTrace (v.after e) es

/-- The view of a reference device. -/
def Device.view (d : Device) : DeviceView := { regs := d.reg, sel := some d.ptr }

/-- The environments of 95_test_vectors.md section 0 that satisfy the healthy-bus premise: the reference device, present,
nothing cleared on read, "no overrides and no other master". -/
def Environment.IsHealthyFixture (e : Environment) : Prop :=
  (∃ d, e.device = .reference d ∧ d.present = true ∧ d.clearIntOnRead = false) ∧ e.overrides = [] ∧ e.moves = []

/-! ### Runs and what a step may touch -/

/-- The machine's run of `n` steps. -/
def runSteps (n : Nat) (s : State) : Host.Outcome State Fault Refusal := Sys2Proof.core.run n s

/-- The next step of `s` is a hardware reset. -/
def nextIsReset (s : State) : Prop := nextAction (environmentMoves s) = .reset

/-- The next step of `s` clears ERR: a hardware reset, or micro-step 0 of INIT (10_state.md R21). -/
def nextClearsErr (s : State) : Prop := nextIsReset s ∨ s.seq = .run .init 0

/-- The next micro-step reads T: step 2 of a read-modify-write, the only place (10_state.md R24, 41_device_session.md R127). -/
def nextReadsT (s : State) : Prop := ∃ i, s.seq = .run i 2 ∧ isReadModifyWrite i = true

/-- Two outcomes of a step agree when they stop alike, or go on to states that agree. -/
def outcomesAgree (agree : State → State → Prop) (o o' : Host.Outcome State Fault Refusal) : Prop :=
  match o, o' with
  | .next s, .next s' => agree s s'
  | .fault f, .fault f' => f = f'
  | .refused r, .refused r' => r = r'
  | _, _ => False

/-- Two states agree but for ERR. -/
def agreeButErr (s s' : State) : Prop := { s with err := s'.err } = s'

/-- Two states agree but for the environment. -/
def agreeButEnv (s s' : State) : Prop := { s with env := s'.env } = s'

/-- Two states agree but for T, and on T too where the next micro-step reads it. -/
def agreeButT (s s' : State) : Prop := { s with t := s'.t } = s' ∧ (nextReadsT s → s.t = s'.t)

end Machine

end Sys2Proof
end

