-- ==== Sys2Proof/Certificates/Slice0/Obligations.lean ====
section
/-! DEFINITION. The statements for the provers, each from numbered rules of spec/. A state is any state unless the statement
names `State.Inv`; the environment is part of the state, so "for every state" is "for every oracle" (20_memory.md R60). -/

open Sys2Proof Sys2Proof.Machine

/-! ### Encoding -/

/-- Words written out bit by bit from 30_encoding.md R84 and R73 decode to the commands they stand for. -/
def Obligations.WorkedWordsDecode : Prop :=
  decode 0b0000000000001000#16 = .command (.wrreg .pwr 0x08#8) ∧
  decode 0b0000011111111111#16 = .command (.wrreg .id 0xFF#8) ∧
  decode 0b0001011100000000#16 = .command (.rdreg .id) ∧
  decode 0b0001000100000000#16 = .command (.rdreg .fmt) ∧
  decode 0b0010000000000000#16 = .command .init ∧
  decode 0b0011000011111110#16 = .command (.setrange 0xFE#8) ∧
  decode 0b0100000000000101#16 = .command (.settapxyz true false true) ∧
  decode 0b0101000000110000#16 = .command (.settapthr 0x30#8) ∧
  decode 0b0110000000010000#16 = .command (.settapdur 0x10#8) ∧
  decode 0b0111000010000000#16 = .command (.setinten 0x80#8) ∧
  decode 0b1000000000000000#16 = .command .getintsrc ∧
  decode 0b1001000000000000#16 = .illegal 0x9000#16 ∧
  decode 0b0001000000000001#16 = .illegal 0x1001#16 ∧
  decode 0b0010000100000000#16 = .illegal 0x2100#16 ∧
  decode 0b0000100000000000#16 = .illegal 0x0800#16 ∧
  decode 0b0100000000001000#16 = .illegal 0x4008#16

/-- Decode and encode agree, for every command and every operand. -/
def Obligations.DecodeEncodeAgree : Prop := ∀ i : Instr, decode (encode i) = .command i

/-- Each legal word has one meaning: the word of the command it decodes to is the word itself. -/
def Obligations.EncodeDecodeAgree : Prop := ∀ (w : Word) (i : Instr), decode w = .command i → encode i = w

/-- 30_encoding.md R73: a word is a command of row `op` exactly when it matches that row, and then it matches no other; a word
that decodes to no command matches no row. -/
def Obligations.DecodeFollowsOpcodeRows : Prop :=
  (∀ (w : Word) (i : Instr), decode w = .command i →
    ∀ n : Fin 9, rowMatches w (opcodeRows[n.val]!) = decide (n.val = i.op.toNat)) ∧
  (∀ (w : Word) (n m : Fin 9), rowMatches w (opcodeRows[n.val]!) = true → rowMatches w (opcodeRows[m.val]!) = true → n = m) ∧
  (∀ w : Word, (∃ n : Fin 9, rowMatches w (opcodeRows[n.val]!) = true) → ∃ i, decode w = .command i)

/-- 30_encoding.md R75: which words are illegal, field by field; an illegal word is named by itself. -/
def Obligations.IllegalWords : Prop :=
  (∀ w : Word, decode w = .illegal w ↔
    (0x9#4 ≤ w.extractLsb' 12 4 ∨ w.getLsbD 11 = true ∨
      (1#4 < w.extractLsb' 12 4 ∧ rselField w ≠ 0#3) ∨
      ((w.extractLsb' 12 4 = 0x1#4 ∨ w.extractLsb' 12 4 = 0x2#4 ∨ w.extractLsb' 12 4 = 0x8#4) ∧ imm8Field w ≠ 0#8) ∨
      (w.extractLsb' 12 4 = 0x4#4 ∧ w.extractLsb' 3 5 ≠ 0#5))) ∧
  (∀ w v : Word, decode w = .illegal v → v = w)

/-- 30_encoding.md R75: of the 2^16 words 3090 are legal, so 62446 are illegal. -/
def Obligations.LegalWordCount : Prop :=
  (List.range 65536).countP (fun n => (decode (BitVec.ofNat 16 n)).isCommand) = 3090

/-- 30_encoding.md R79: the word of every well-formed assembler line decodes to the command the line stands for. -/
def Obligations.AssemblerWordsDecode : Prop :=
  ∀ a : AsmLine, a.wellFormed = true → a.word < 65536 ∧ decode (BitVec.ofNat 16 a.word) = .command a.toInstr

/-- A word of spec/opcode_table.json put on the command port of an idle controller is what the next step decodes, and only
the port and SEQ are touched in putting it there. -/
def Obligations.FetchWordIsTakenNext : Prop :=
  ∀ (s : State) (w : Nat), s.withFetchWord 16 w = { s with seq := .idle, host := .word (BitVec.ofNat 16 w) :: s.host } ∧
    step (s.withFetchWord 16 w) =
      match decodeTableWord 16 w with
      | some i => exec i (environmentMoves (s.withFetchWord 16 w))
      | none => .next (acceptIllegal (environmentMoves (s.withFetchWord 16 w)))

/-! ### Reset -/

/-- 10_state.md R33: the values the spec gives for reset. T, RESP.kind and RESP.data are not said (log entries 1 and 2). -/
def Obligations.ResetValues : Prop :=
  State.reset.err = false ∧ State.reset.busup = false ∧ State.reset.seq = .idle ∧ State.reset.resp.valid = false ∧
    State.reset.response = none ∧ State.reset.history = []

/-- 10_state.md R33, 70_reset_and_hazards.md R180: a reset at Idle gives those values and leaves the environment as it was. -/
def Obligations.HardwareResetAtIdle : Prop :=
  ∀ (s : State) (rest : List HostInput), s.seq = .idle → (s.host = .reset :: rest ∨ s.host = .resetNow :: rest) →
    ∃ t, step s = .next t ∧ t.err = false ∧ t.busup = false ∧ t.seq = .idle ∧ t.resp.valid = false ∧ t.response = none ∧
      t.history = [] ∧ t.env = s.env.advance ∧ t.host = rest

/-- 70_reset_and_hazards.md R181: a run that resets mid-command is refused. That a host input waits for Idle while the command
goes on is the model's choice of two reset inputs, log entry 7. -/
def Obligations.ResetMidCommandIsRefused : Prop :=
  ∀ (s : State) (i : Instr) (k : Nat) (rest : List HostInput), s.seq = .run i k →
    (s.host = .resetNow :: rest → step s = .refused .resetMidCommand) ∧
    (s.host = .reset :: rest → step s = exec i (environmentMoves s))

/-- The invariant holds at reset. -/
def Obligations.InvariantAtReset : Prop := State.Inv State.reset

/-! ### The command cycle -/

/-- A step at Idle runs the command the word on the port decodes to; an illegal word is refused. The step adds only the
environment's moves. -/
def Obligations.StepRunsPresentedWord : Prop :=
  ∀ (s : State) (w : Word) (rest : List HostInput), s.seq = .idle → s.host = .word w :: rest →
    (∀ i, decode w = .command i → step s = exec i (environmentMoves s)) ∧
    (decode w = .illegal w → step s = .next (acceptIllegal (environmentMoves s)))

/-- A step while a command is in flight is the next step of that command, whatever the host holds but a reset asserted at
once (the model's input of log entry 7). That an Idle step with nothing on the port is the environment's alone is the model's
choice, log entry 6. -/
def Obligations.StepGoesOnWithCommand : Prop :=
  (∀ (s : State) (i : Instr) (k : Nat), s.seq = .run i k → s.host.head? ≠ some .resetNow →
    step s = exec i (environmentMoves s)) ∧
  (∀ s : State, s.seq = .idle → s.host = [] → step s = .next (environmentMoves s))

/-- 60_exceptions.md R153, R155 (a): a refused word performs no bus primitive and changes none of ERR, BUSUP, T; it responds
at once. An illegal word, BUSUP 0 or 1, is ILLEGAL; a legal word that is not INIT while BUSUP = 0 is NOTREADY. -/
def Obligations.RefusalsChangeOnlyTheResponse : Prop :=
  ∀ (s : State) (w : Word) (rest : List HostInput), s.seq = .idle → s.host = .word w :: rest →
    (decode w = .illegal w →
      step s = .next { s with
        resp := { valid := true, kind := 0b01#2, data := 0x00#8 }, responses := s.responses ++ [(0b01#2, 0x00#8)],
        host := rest, env := s.env.advance }) ∧
    (∀ i, decode w = .command i → i ≠ .init → s.busup = false →
      step s = .next { s with
        resp := { valid := true, kind := 0b10#2, data := 0x00#8 }, responses := s.responses ++ [(0b10#2, 0x00#8)],
        host := rest, env := s.env.advance })

/-- 40_bus_transaction_layer.md R100: acceptance without refusal clears RESP.valid and starts the command at micro-step 0;
INIT is accepted whatever BUSUP. -/
def Obligations.AcceptanceStartsCommand : Prop :=
  ∀ (s : State) (i : Instr), s.seq = .idle → (s.busup = true ∨ i = .init) →
    exec i s = .next { s with resp := { s.resp with valid := false }, seq := .run i 0, host := s.host.tail }

/-- A micro-step a command does not have is a fault, by name, whichever command SEQ names: the model's own choices, log entries 12 and 13 (10_state.md R23 gives
every command a fixed list of steps, so SEQ never names another one). -/
def Obligations.NoSuchMicroStepFaults : Prop :=
  ∀ (s : State) (i c : Instr) (k : Nat), s.seq = .run c k → i.stepCount ≤ k → exec i s = .fault .noSuchMicroStep

/-- 10_state.md R25, 40_bus_transaction_layer.md R100: RESP changes only when a word is taken or the machine resets (valid
becomes 0, or a refusal is written) and when a command responds; a response is the last of the response log. -/
def Obligations.ResponseLifecycle : Prop :=
  ∀ s t : State, step s = .next t →
    t.resp = s.resp ∨ (s.seq = .idle ∧ s.host ≠ [] ∧ t.resp.valid = false) ∨
      (t.seq = .idle ∧ t.resp.valid = true ∧ t.resp.kind ≠ 0b11#2 ∧
        t.responses = s.responses ++ [(t.resp.kind, t.resp.data)])

/-- 10_state.md R23, 40_bus_transaction_layer.md R100: while SEQ is not Idle no word is accepted: the host's inputs stay, and
a command goes to its next micro-step or responds. -/
def Obligations.BusyPortTakesNothing : Prop :=
  ∀ (s t : State) (i : Instr) (k : Nat), s.seq = .run i k → step s = .next t →
    t.host = s.host ∧
      ((t.seq = .run i (k + 1) ∧ t.resp = s.resp ∧ t.responses = s.responses) ∨
        (t.seq = .idle ∧ t.resp.valid = true ∧ t.resp.kind = 0b00#2 ∧
          t.responses = s.responses ++ [(t.resp.kind, t.resp.data)]))

/-! ### The transaction primitives -/

/-- 40_bus_transaction_layer.md R101: a write transaction is one frame and writes no controller state. -/
def Obligations.WriteTxnIsOneFrame : Prop :=
  ∀ (off v : Byte) (s : State),
    writeTxn off v s = { s with history := s.history ++ [.write 0x53#7 [off, v]], env := s.env.onWrite 0x53#7 [off, v] }

/-- 40_bus_transaction_layer.md R102: the read transaction, micro-step by micro-step. Step a sends the offset frame and
examines nothing. Step b takes the environment's list `r`: with one byte T is that byte and ERR stays; with none or more T is
0x00 and ERR is 1. -/
def Obligations.ReadTxnTwoMicroSteps : Prop :=
  (∀ (off : Byte) (s : State),
    readTxnOffset off s = { s with history := s.history ++ [.write 0x53#7 [off]], env := s.env.onWrite 0x53#7 [off] }) ∧
  (∀ (s : State) (b : Byte), s.env.answer s.history 0x53#7 1 = [b] →
    readTxnByte s = { s with history := s.history ++ [.read 0x53#7 1 [b]], env := s.env.afterRead 0x53#7 1, t := b }) ∧
  (∀ (s : State) (r : List Byte), s.env.answer s.history 0x53#7 1 = r → r.length ≠ 1 →
    readTxnByte s = { s with history := s.history ++ [.read 0x53#7 1 r], env := s.env.afterRead 0x53#7 1, t := 0x00#8,
                             err := true }) ∧
  ∀ off : Byte, readTxn off = [.offsetFrame off, .readFrame]

/-! ### The commands, each from its word to its response -/

/-- WRREG (40_bus_transaction_layer.md R103): its words, its refusal, its one micro-step and all it leaves unchanged. -/
def Obligations.WrregWritesOneRegister : Prop :=
  (∀ w : Word, w.extractLsb' 12 4 = 0x0#4 →
    decode w = if w.getLsbD 11 = false then .command (.wrreg (DevReg.ofRsel (rselField w)) (imm8Field w)) else .illegal w) ∧
  (∀ (reg : DevReg) (v : Byte) (s : State), s.seq = .idle →
    exec (.wrreg reg v) s = .next (acceptedOrNotReady (.wrreg reg v) s)) ∧
  (∀ (reg : DevReg) (v : Byte) (s : State), s.seq = .run (.wrreg reg v) 0 →
    exec (.wrreg reg v) s = .next { s with
      history := s.history ++ [.write 0x53#7 [reg.offset, v]], env := s.env.onWrite 0x53#7 [reg.offset, v],
      resp := { valid := true, kind := 0b00#2, data := 0x00#8 }, responses := s.responses ++ [(0b00#2, 0x00#8)],
      seq := .idle })

/-- RDREG (40_bus_transaction_layer.md R104): its words, its two micro-steps, the response data and ERR. -/
def Obligations.RdregReadsOneRegister : Prop :=
  (∀ w : Word, w.extractLsb' 12 4 = 0x1#4 →
    decode w = if w.getLsbD 11 = false ∧ imm8Field w = 0#8 then .command (.rdreg (DevReg.ofRsel (rselField w)))
      else .illegal w) ∧
  (∀ (reg : DevReg) (s : State), s.seq = .idle → exec (.rdreg reg) s = .next (acceptedOrNotReady (.rdreg reg) s)) ∧
  (∀ (reg : DevReg) (s : State), s.seq = .run (.rdreg reg) 0 →
    exec (.rdreg reg) s = .next { s with
      history := s.history ++ [.write 0x53#7 [reg.offset]], env := s.env.onWrite 0x53#7 [reg.offset],
      seq := .run (.rdreg reg) 1 }) ∧
  (∀ (reg : DevReg) (s : State) (r : List Byte), s.seq = .run (.rdreg reg) 1 → s.env.answer s.history 0x53#7 1 = r →
    exec (.rdreg reg) s = .next { s with
      history := s.history ++ [.read 0x53#7 1 r], env := s.env.afterRead 0x53#7 1,
      t := byteOf r, err := (s.err || r.length != 1),
      resp := { valid := true, kind := 0b00#2, data := byteOf r }, responses := s.responses ++ [(0b00#2, byteOf r)],
      seq := .idle })

/-- INIT (41_device_session.md R120): its one word and its five micro-steps in order: ERR <- 0; BusStartup and BUSUP <- 1;
the power-control write 0x08; the identity read; the response 0x01 exactly when the list read is [0xE5]. -/
def Obligations.InitFiveMicroSteps : Prop :=
  (∀ w : Word, w.extractLsb' 12 4 = 0x2#4 → decode w = if w = 0x2000#16 then .command .init else .illegal w) ∧
  (∀ s : State, s.seq = .idle → exec .init s = .next (accepted .init s)) ∧
  (∀ s : State, s.seq = .run .init 0 → exec .init s = .next { s with err := false, seq := .run .init 1 }) ∧
  (∀ s : State, s.seq = .run .init 1 →
    exec .init s = .next { s with history := s.history ++ [.startup], busup := true, seq := .run .init 2 }) ∧
  (∀ s : State, s.seq = .run .init 2 →
    exec .init s = .next { s with
      history := s.history ++ [.write 0x53#7 [0x2D#8, 0x08#8]], env := s.env.onWrite 0x53#7 [0x2D#8, 0x08#8],
      seq := .run .init 3 }) ∧
  (∀ s : State, s.seq = .run .init 3 →
    exec .init s = .next { s with
      history := s.history ++ [.write 0x53#7 [0x00#8]], env := s.env.onWrite 0x53#7 [0x00#8], seq := .run .init 4 }) ∧
  (∀ (s : State) (r : List Byte), s.seq = .run .init 4 → s.env.answer s.history 0x53#7 1 = r →
    exec .init s = .next { s with
      history := s.history ++ [.read 0x53#7 1 r], env := s.env.afterRead 0x53#7 1,
      t := byteOf r, err := (s.err || r.length != 1),
      resp := { valid := true, kind := 0b00#2, data := if r = [0xE5#8] then 0x01#8 else 0x00#8 },
      responses := s.responses ++ [(0b00#2, if r = [0xE5#8] then 0x01#8 else 0x00#8)], seq := .idle })

/-- SETRANGE (41_device_session.md R121): its words (all 256 codes legal), its three micro-steps, the write back of
`(T & 0xFC) | (code & 0x03)`, whether or not the read succeeded. -/
def Obligations.SetrangeMergesLowTwoBits : Prop :=
  (∀ w : Word, w.extractLsb' 12 4 = 0x3#4 →
    decode w = if w.getLsbD 11 = false ∧ rselField w = 0#3 then .command (.setrange (imm8Field w)) else .illegal w) ∧
  (∀ (code : Byte) (s : State), s.seq = .idle →
    exec (.setrange code) s = .next (acceptedOrNotReady (.setrange code) s)) ∧
  (∀ (code : Byte) (s : State), s.seq = .run (.setrange code) 0 →
    exec (.setrange code) s = .next { s with
      history := s.history ++ [.write 0x53#7 [0x31#8]], env := s.env.onWrite 0x53#7 [0x31#8],
      seq := .run (.setrange code) 1 }) ∧
  (∀ (code : Byte) (s : State) (r : List Byte), s.seq = .run (.setrange code) 1 → s.env.answer s.history 0x53#7 1 = r →
    exec (.setrange code) s = .next { s with
      history := s.history ++ [.read 0x53#7 1 r], env := s.env.afterRead 0x53#7 1,
      t := byteOf r, err := (s.err || r.length != 1), seq := .run (.setrange code) 2 }) ∧
  (∀ (code out : Byte) (s : State), s.seq = .run (.setrange code) 2 → out = (s.t &&& 0xFC#8) ||| (code &&& 0x03#8) →
    exec (.setrange code) s = .next { s with
      history := s.history ++ [.write 0x53#7 [0x31#8, out]], env := s.env.onWrite 0x53#7 [0x31#8, out],
      resp := { valid := true, kind := 0b00#2, data := 0x00#8 }, responses := s.responses ++ [(0b00#2, 0x00#8)],
      seq := .idle })

/-- SETTAPXYZ (41_device_session.md R122): its words, its three micro-steps, the write back of `(T & 0xF8) | m` with x in bit
2, y in bit 1 and z in bit 0 of m. -/
def Obligations.SettapxyzMergesLowThreeBits : Prop :=
  (∀ w : Word, w.extractLsb' 12 4 = 0x4#4 →
    decode w = if w.extractLsb' 3 9 = 0#9 then .command (.settapxyz (w.getLsbD 2) (w.getLsbD 1) (w.getLsbD 0))
      else .illegal w) ∧
  (∀ (x y z : Bool) (s : State), s.seq = .idle →
    exec (.settapxyz x y z) s = .next (acceptedOrNotReady (.settapxyz x y z) s)) ∧
  (∀ (x y z : Bool) (s : State), s.seq = .run (.settapxyz x y z) 0 →
    exec (.settapxyz x y z) s = .next { s with
      history := s.history ++ [.write 0x53#7 [0x2A#8]], env := s.env.onWrite 0x53#7 [0x2A#8],
      seq := .run (.settapxyz x y z) 1 }) ∧
  (∀ (x y z : Bool) (s : State) (r : List Byte), s.seq = .run (.settapxyz x y z) 1 →
    s.env.answer s.history 0x53#7 1 = r →
    exec (.settapxyz x y z) s = .next { s with
      history := s.history ++ [.read 0x53#7 1 r], env := s.env.afterRead 0x53#7 1,
      t := byteOf r, err := (s.err || r.length != 1), seq := .run (.settapxyz x y z) 2 }) ∧
  (∀ (x y z : Bool) (out : Byte) (s : State), s.seq = .run (.settapxyz x y z) 2 →
    out.extractLsb' 3 5 = s.t.extractLsb' 3 5 → out.getLsbD 2 = x → out.getLsbD 1 = y → out.getLsbD 0 = z →
    exec (.settapxyz x y z) s = .next { s with
      history := s.history ++ [.write 0x53#7 [0x2A#8, out]], env := s.env.onWrite 0x53#7 [0x2A#8, out],
      resp := { valid := true, kind := 0b00#2, data := 0x00#8 }, responses := s.responses ++ [(0b00#2, 0x00#8)],
      seq := .idle })

/-- SETTAPTHR, SETTAPDUR and SETINTEN (41_device_session.md R123, R124, R125): their words, their one unconditional write of
the whole byte, no read, and all they leave unchanged. -/
def Obligations.DirectSettersWriteWholeRegister : Prop :=
  (∀ w : Word, w.extractLsb' 12 4 = 0x5#4 →
    decode w = if w.extractLsb' 8 4 = 0#4 then .command (.settapthr (imm8Field w)) else .illegal w) ∧
  (∀ w : Word, w.extractLsb' 12 4 = 0x6#4 →
    decode w = if w.extractLsb' 8 4 = 0#4 then .command (.settapdur (imm8Field w)) else .illegal w) ∧
  (∀ w : Word, w.extractLsb' 12 4 = 0x7#4 →
    decode w = if w.extractLsb' 8 4 = 0#4 then .command (.setinten (imm8Field w)) else .illegal w) ∧
  (∀ (i : Instr) (v : Byte) (s : State), i = .settapthr v ∨ i = .settapdur v ∨ i = .setinten v → s.seq = .idle →
    exec i s = .next (acceptedOrNotReady i s)) ∧
  (∀ (i : Instr) (off v : Byte) (s : State),
    (i = .settapthr v ∧ off = 0x1D#8) ∨ (i = .settapdur v ∧ off = 0x21#8) ∨ (i = .setinten v ∧ off = 0x2E#8) →
    s.seq = .run i 0 →
    exec i s = .next { s with
      history := s.history ++ [.write 0x53#7 [off, v]], env := s.env.onWrite 0x53#7 [off, v],
      resp := { valid := true, kind := 0b00#2, data := 0x00#8 }, responses := s.responses ++ [(0b00#2, 0x00#8)],
      seq := .idle })

/-- 41_device_session.md R125, 20_memory.md R43: the packed byte of SETINTEN has each flag in its fixed position. -/
def Obligations.InterruptFlagPositions : Prop :=
  ∀ dataReady singleTap doubleTap activity inactivity freeFall watermark overrun : Bool,
    let f := packIntFlags dataReady singleTap doubleTap activity inactivity freeFall watermark overrun
    f.getLsbD 7 = dataReady ∧ f.getLsbD 6 = singleTap ∧ f.getLsbD 5 = doubleTap ∧ f.getLsbD 4 = activity ∧
      f.getLsbD 3 = inactivity ∧ f.getLsbD 2 = freeFall ∧ f.getLsbD 1 = watermark ∧ f.getLsbD 0 = overrun

/-- GETINTSRC (41_device_session.md R126): its one word, its two micro-steps, the raw byte as response data. -/
def Obligations.GetintsrcReturnsRawByte : Prop :=
  (∀ w : Word, w.extractLsb' 12 4 = 0x8#4 → decode w = if w = 0x8000#16 then .command .getintsrc else .illegal w) ∧
  (∀ s : State, s.seq = .idle → exec .getintsrc s = .next (acceptedOrNotReady .getintsrc s)) ∧
  (∀ s : State, s.seq = .run .getintsrc 0 →
    exec .getintsrc s = .next { s with
      history := s.history ++ [.write 0x53#7 [0x30#8]], env := s.env.onWrite 0x53#7 [0x30#8],
      seq := .run .getintsrc 1 }) ∧
  (∀ (s : State) (r : List Byte), s.seq = .run .getintsrc 1 → s.env.answer s.history 0x53#7 1 = r →
    exec .getintsrc s = .next { s with
      history := s.history ++ [.read 0x53#7 1 r], env := s.env.afterRead 0x53#7 1,
      t := byteOf r, err := (s.err || r.length != 1),
      resp := { valid := true, kind := 0b00#2, data := byteOf r }, responses := s.responses ++ [(0b00#2, byteOf r)],
      seq := .idle })

/-- 41_device_session.md R130: the masking laws of the two read-modify-writes, through the model's own computation of the byte
written back. -/
def Obligations.MaskingLaws : Prop :=
  ∀ (t c : Byte) (x y z : Bool),
    mergeBits t rangeOwnedBits (rangeCode c) &&& 0xFC#8 = t &&& 0xFC#8 ∧
    mergeBits t rangeOwnedBits (rangeCode c) &&& 0x03#8 = c &&& 0x03#8 ∧
    mergeBits t axesOwnedBits (tapMask x y z) &&& 0xF8#8 = t &&& 0xF8#8 ∧
    mergeBits t axesOwnedBits (tapMask x y z) &&& 0x07#8 = tapMask x y z

/-- 30_encoding.md R80: the four equivalences, each command in its own run. Acceptance at Idle is the same but for the command
SEQ names, and so is the refusal; each micro-step does the same and the last one ends in the same state; from the same state
with the one word or the other on the port, the whole runs end in the same state: the same bus effect, the same response. -/
def Obligations.AliasesHaveTheSameEffect : Prop :=
  ∀ (a b : Instr) (s : State), IsAlias a b →
    (s.seq = .idle → s.busup = true → exec a s = .next (accepted a s) ∧ exec b s = .next { accepted a s with seq := .run b 0 }) ∧
    (s.seq = .idle → s.busup = false → exec a s = exec b s) ∧
    (∀ k, k < a.stepCount → ∃ u,
      if k + 1 < a.stepCount then
        exec a { s with seq := .run a k } = .next { u with seq := .run a (k + 1) } ∧
          exec b { s with seq := .run b k } = .next { u with seq := .run b (k + 1) }
      else exec a { s with seq := .run a k } = .next u ∧ exec b { s with seq := .run b k } = .next u) ∧
    (∀ rest : List HostInput, s.seq = .idle → rest.head? ≠ some .resetNow → s.busup = true →
      ∃ t, runSteps (a.stepCount + 1) { s with host := .word (encode a) :: rest } = .next t ∧
        runSteps (b.stepCount + 1) { s with host := .word (encode b) :: rest } = .next t ∧ t.seq = .idle ∧ t.host = rest)

/-! ### Whole commands -/

/-- 60_exceptions.md R167 and the "History appended" of every command: from Idle with the command's word on the port, and
BUSUP = 1 or the command INIT, the command runs to its response. `r` is the list its one read returned: an override gives it,
and it stands in the history. -/
def Obligations.CommandOutcomeTable : Prop :=
  ∀ (i : Instr) (s : State) (rest : List HostInput), s.seq = .idle → s.host = .word (encode i) :: rest →
    rest.head? ≠ some .resetNow → (s.busup = true ∨ i = .init) →
    ∃ (r : List Byte) (t : State), runSteps (i.stepCount + 1) s = .next t ∧
      t.history = s.history ++ expectedHistory i r ∧
      t.err = expectedErr i s.err r ∧ t.busup = true ∧ t.seq = .idle ∧ t.host = rest ∧
      t.resp = { valid := true, kind := 0b00#2, data := expectedData i r } ∧
      t.responses = s.responses ++ [(0b00#2, expectedData i r)] ∧
      (i.reads = false → t.t = s.t) ∧ (i.reads = true → t.t = byteOf r) ∧
      ∀ r0 os, s.env.overrides = some r0 :: os → i.reads = true → r = r0 ∧ t.env.overrides = os

/-- 70_reset_and_hazards.md R193: the number of micro-steps and frames per command is exact and fixed, whatever the bus
returns; a refusal has none. -/
def Obligations.StepAndFrameCounts : Prop :=
  (∀ (i : Instr) (s : State) (rest : List HostInput), s.seq = .idle → s.host = .word (encode i) :: rest →
    rest.head? ≠ some .resetNow → (s.busup = true ∨ i = .init) →
    (∀ m, m < i.stepCount → ∃ u, runSteps (m + 1) s = .next u ∧ u.seq = .run i m) ∧
    ∃ t, runSteps (i.stepCount + 1) s = .next t ∧ t.seq = .idle ∧
      t.history.countP BusEvent.isFrame = s.history.countP BusEvent.isFrame + i.frameCount) ∧
  (∀ (s : State) (w : Word) (rest : List HostInput), s.seq = .idle → s.host = .word w :: rest →
    (decode w = .illegal w ∨ (s.busup = false ∧ ∃ i, decode w = .command i ∧ i ≠ .init)) →
    ∃ t, step s = .next t ∧ t.seq = .idle ∧ t.history = s.history)

/-- 70_reset_and_hazards.md R185: a read-modify-write whose read fails writes its own bits alone and leaves ERR = 1. -/
def Obligations.FailedReadLosesPreservedBits : Prop :=
  ∀ (i : Instr) (off n : Byte) (s : State) (rest : List HostInput) (r : List Byte) (os : List (Option (List Byte))),
    (∃ code, i = .setrange code ∧ off = 0x31#8 ∧ n = code &&& 0x03#8) ∨
      (∃ x y z, i = .settapxyz x y z ∧ off = 0x2A#8 ∧ n = tapMask x y z) →
    s.seq = .idle → s.host = .word (encode i) :: rest → rest.head? ≠ some .resetNow → s.busup = true →
    s.env.overrides = some r :: os → r.length ≠ 1 →
    ∃ t, runSteps 4 s = .next t ∧ t.history.getLast? = some (.write 0x53#7 [off, n]) ∧ t.err = true ∧
      t.resp = { valid := true, kind := 0b00#2, data := 0x00#8 }

/-- 40_bus_transaction_layer.md R105: the round-trip law under the healthy-bus premise of 20_memory.md R62, for every
register and every value. -/
def Obligations.RoundTripOnHealthyBus : Prop :=
  ∀ (reg : DevReg) (v : Byte) (s : State) (rest : List HostInput) (view : DeviceView), s.seq = .idle → s.busup = true →
    s.host = .word (encode (.wrreg reg v)) :: .word (encode (.rdreg reg)) :: rest → rest.head? ≠ some .resetNow →
    ∃ t, runSteps 5 s = .next t ∧
      (HealthyTrace view (t.history.drop s.history.length) →
        t.resp = { valid := true, kind := 0b00#2, data := v } ∧ t.err = s.err)

/-- 20_memory.md R54 (a), 70_reset_and_hazards.md R195: every list of words runs to its end, in at most six steps a word, and
what can be said of the end is what the words do one after another: the history is the concatenation, in command order, of
each command's frames; the responses are in order; ERR and BUSUP follow. `rs` are the lists the reads returned. -/
def Obligations.ProgramsRunToTheirEnd : Prop :=
  ∀ (ws : List Word) (s : State), s.seq = .idle → s.host = ws.map .word →
    ∃ (n : Nat) (rs : List (List Byte)) (t : State), n ≤ 6 * ws.length ∧ rs.length = ws.length ∧
      runSteps n s = .next t ∧ t.seq = .idle ∧ t.host = [] ∧ t.visible = programEnd s.visible (ws.zip rs) ∧
      (ws ≠ [] → t.runOver = true)

/-! ### Rules about every step -/

/-- The invariant is kept by every step, from every state that has it. -/
def Obligations.EveryStepKeepsInvariant : Prop := ∀ s t : State, State.Inv s → step s = .next t → State.Inv t

/-- From every state with the invariant the machine goes on, unless the host asserts reset mid-command: no fault, no other
refusal. -/
def Obligations.MachineNeverStops : Prop :=
  ∀ s : State, State.Inv s →
    (∃ t, step s = .next t) ∨ (s.seq ≠ .idle ∧ s.host.head? = some .resetNow ∧ step s = .refused .resetMidCommand)

/-- 10_state.md R21: ERR is written by three events only: a reset, micro-step 0 of INIT, and a read frame whose answer is not
one byte. -/
def Obligations.OnlyThreeEventsWriteErr : Prop :=
  ∀ s t : State, step s = .next t → t.err ≠ s.err →
    (t.err = false ∧ nextClearsErr s) ∨
      (t.err = true ∧ ∃ r, r.length ≠ 1 ∧ t.history = s.history ++ [.read 0x53#7 1 r])

/-- 40_bus_transaction_layer.md R106: a failed read sets ERR and yields 0x00 in its own step, and ERR = 1 stays through every later step,
commands and refusals alike, until micro-step 0 of an INIT or a reset. -/
def Obligations.ErrorFlagIsSticky : Prop :=
  (∀ (s t : State) (r : List Byte), step s = .next t → r.length ≠ 1 → t.history = s.history ++ [.read 0x53#7 1 r] →
    t.err = true ∧ t.t = 0x00#8) ∧
  (∀ (n : Nat) (s t : State), s.err = true → runSteps n s = .next t →
    (∀ m u, m < n → runSteps m s = .next u → ¬ nextClearsErr u) → t.err = true)

/-- 10_state.md R21: no micro-step depends on ERR: two states that agree but for ERR step alike, to states that agree but for
ERR. -/
def Obligations.NothingDependsOnErr : Prop :=
  ∀ s s' : State, agreeButErr s s' → outcomesAgree agreeButErr (step s) (step s')

/-- 10_state.md R24: T is read in no other place than the write of a read-modify-write: two states that agree but for T, and
on T where the next micro-step reads it, step alike, to states that agree so again. -/
def Obligations.TIsReadOnlyByMerge : Prop :=
  ∀ s s' : State, agreeButT s s' → outcomesAgree agreeButT (step s) (step s')

/-- 20_memory.md R61, 10_state.md R31: the controller sees the environment only through the list a BusRead returns: two states
that agree but for the environment step alike in everything but the environment, unless the step is a read frame and the two
environments answer it differently. -/
def Obligations.EnvironmentSeenOnlyThroughReads : Prop :=
  ∀ s s' : State, agreeButEnv s s' →
    ((∀ t r, step s = .next t → t.history ≠ s.history ++ [.read 0x53#7 1 r]) ∨
      (environmentMoves s).env.answer s.history 0x53#7 1 = (environmentMoves s').env.answer s'.history 0x53#7 1) →
    outcomesAgree agreeButEnv (step s) (step s')

/-- 10_state.md R22: BUSUP becomes 1 only in micro-step 1 of INIT, and nothing clears it but reset. -/
def Obligations.BusupLifecycle : Prop :=
  ∀ s t : State, step s = .next t →
    (s.busup = true → t.busup = true ∨ nextIsReset s) ∧
    (s.busup = false → t.busup = true → s.seq = .run .init 1) ∧
    (s.seq = .run .init 1 → t.busup = true)

/-- 20_memory.md R54, R59: a step appends at most one bus primitive and never changes what is in the history; only a reset
empties it. -/
def Obligations.OnePrimitivePerStep : Prop :=
  ∀ s t : State, step s = .next t →
    (nextIsReset s ∧ t.history = []) ∨ ∃ es, t.history = s.history ++ es ∧ es.length ≤ 1

/-- 30_encoding.md R82: every primitive a step performs is the startup or one of the three frame shapes, addressed to 0x53,
at one of the eight offsets. -/
def Obligations.ThreeFrameShapesOnly : Prop :=
  ∀ s t : State, step s = .next t → ∀ e, t.history = s.history ++ [e] →
    e = .startup ∨ (∃ (reg : DevReg) (v : Byte), e = .write 0x53#7 [reg.offset, v]) ∨
      (∃ reg : DevReg, e = .write 0x53#7 [reg.offset]) ∨ ∃ r : List Byte, e = .read 0x53#7 1 r

/-- What a micro-step of any command leaves unchanged. The host's inputs stay (40_bus_transaction_layer.md R100). BUSUP, ERR and
T are written where 10_state.md R22, R21 and R24 say; RESP by the command's last micro-step alone (R25). A store goes out as
the frame `[off, v]`, an offset frame as `[off]`, the environment hears exactly that frame, and the reference device keeps
every register but `off`, or every one. A micro-step that is neither leaves every register, but that a read of
interrupt-source may clear that one in a clear-on-read device (20_memory.md R50). The clauses on the planned moves and the
overrides are about the model's own constructs, log entries 5 and 3. -/
def Obligations.MicroStepFrame : Prop :=
  ∀ (s t : State) (i : Instr) (k : Nat), s.seq = .run i k → exec i s = .next t →
    (t.host = s.host ∧ (t.busup ≠ s.busup → i = .init ∧ k = 1) ∧
      (t.err ≠ s.err → (i = .init ∧ k = 0 ∧ t.err = false) ∨
        (t.err = true ∧ ∃ r, r.length ≠ 1 ∧ t.history = s.history ++ [.read 0x53#7 1 r])) ∧
      (t.t ≠ s.t → ∃ r, t.history = s.history ++ [.read 0x53#7 1 r] ∧ t.t = byteOf r) ∧
      (k + 1 ≠ i.stepCount → t.resp = s.resp ∧ t.responses = s.responses)) ∧
    (∀ off v, storedRegister i k s.t = some (off, v) →
      t.history = s.history ++ [.write 0x53#7 [off, v]] ∧ t.env = s.env.onWrite 0x53#7 [off, v] ∧
        registersKept (fun _ a => a ≠ off) s.env.device t.env.device) ∧
    (∀ off, selectedRegister i k = some off →
      t.history = s.history ++ [.write 0x53#7 [off]] ∧ t.env = s.env.onWrite 0x53#7 [off] ∧
        registersKept (fun _ _ => True) s.env.device t.env.device) ∧
    (storedRegister i k s.t = none → selectedRegister i k = none →
      (∀ a bytes, t.history ≠ s.history ++ [.write a bytes]) ∧
        registersKept (fun d a => d.clearIntOnRead = false ∨ d.ptr ≠ 0x30#8 ∨ a ≠ 0x30#8) s.env.device t.env.device) ∧
    (t.env.moves = s.env.moves ∧
      (t.env.overrides ≠ s.env.overrides → ∃ r, t.history = s.history ++ [.read 0x53#7 1 r]))

/-! ### The environment -/

/-- The register space of the reference device: reading after a write, at the written offset and at every other one. -/
def Obligations.RegisterSpaceLaws : Prop :=
  ∀ (m : Memory) (a : Nat) (v : Byte), m.wf →
    (m.write a v).read a = v ∧ ∀ b, b ≠ a → (m.write a v).read b = m.read b

/-- 20_memory.md R50 (c), R62 (H-a, H-b), at the reference device, for every command that writes or selects: the frame of a
store sets the register at the offset the command computes to the value it computes and changes no other; an offset frame
selects its register and changes none. -/
def Obligations.FramesTouchOneRegister : Prop :=
  ∀ (i : Instr) (k : Nat) (s : State) (d : Device) (off : Byte), s.env.device = .reference d → d.present = true →
    d.regs.wf → s.seq = .run i k →
    (∀ v, storedRegister i k s.t = some (off, v) →
      ∃ t d', exec i s = .next t ∧ t.history = s.history ++ [.write 0x53#7 [off, v]] ∧ t.env.device = .reference d' ∧
        d'.reg off = v ∧ d'.ptr = off ∧ ∀ a, a ≠ off → d'.reg a = d.reg a) ∧
    (selectedRegister i k = some off →
      ∃ t d', exec i s = .next t ∧ t.history = s.history ++ [.write 0x53#7 [off]] ∧ t.env.device = .reference d' ∧
        d'.ptr = off ∧ ∀ a, d'.reg a = d.reg a)

/-- 95_test_vectors.md section 0: the reference device, present, with no overrides and no other master, satisfies the
healthy-bus premise over every run without a reset. -/
def Obligations.ReferenceDeviceIsHealthy : Prop :=
  ∀ (n : Nat) (s t : State) (d : Device), s.env.device = .reference d → d.regs.wf → s.env.IsHealthyFixture →
    (∀ x ∈ s.host, ∃ w, x = .word w) → runSteps n s = .next t →
    s.history = t.history.take s.history.length ∧ HealthyTrace d.view (t.history.drop s.history.length)

/-- 70_reset_and_hazards.md R186: a change of data-format by another master just before SETRANGE's write is overwritten with
the stale upper bits, and nothing reports it. -/
def Obligations.LostUpdate : Prop :=
  ∀ (s : State) (d : Device) (code v : Byte) (later : List (List EnvMove)), s.seq = .run (.setrange code) 2 →
    s.host.head? ≠ some .resetNow → s.env.device = .reference d → d.present = true → d.regs.wf →
    s.env.moves = [.setRegister 0x31#8 v] :: later →
    ∃ t d', step s = .next t ∧ t.env.device = .reference d' ∧ d'.reg 0x31#8 = (s.t &&& 0xFC#8) ||| (code &&& 0x03#8) ∧
      t.err = s.err ∧ t.resp = { valid := true, kind := 0b00#2, data := 0x00#8 }

/-- 70_reset_and_hazards.md R187: another master that selects a different register between the two frames of a read makes
the read return that register's byte, with no error. -/
def Obligations.ReadBetweenFramesIsExposed : Prop :=
  ∀ (s : State) (d : Device) (reg : DevReg) (off : Byte) (later : List (List EnvMove)), s.seq = .run (.rdreg reg) 1 →
    s.host.head? ≠ some .resetNow → s.env.device = .reference d → d.present = true → s.env.overrides = [] →
    s.env.moves = [.selectRegister off] :: later →
    ∃ t, step s = .next t ∧ t.err = s.err ∧ t.resp = { valid := true, kind := 0b00#2, data := d.reg off }

/-- 20_memory.md R50 (a), 70_reset_and_hazards.md R188, at the reference device with clear-on-read: GETINTSRC and RDREG INTSRC
return the latched byte and leave interrupt-source 0 and every other register as it was. -/
def Obligations.DestructiveRead : Prop :=
  ∀ (i : Instr) (s : State) (d : Device), i = .getintsrc ∨ i = .rdreg .intsrc → s.seq = .run i 1 →
    s.env.device = .reference d → d.present = true → d.clearIntOnRead = true → d.ptr = 0x30#8 → d.regs.wf →
    s.env.overrides = [] →
    ∃ t d', exec i s = .next t ∧ t.resp = { valid := true, kind := 0b00#2, data := d.reg 0x30#8 } ∧
      t.env.device = .reference d' ∧ d'.reg 0x30#8 = 0x00#8 ∧ ∀ a, a ≠ 0x30#8 → d'.reg a = d.reg a

/-- 60_exceptions.md R152, 95_test_vectors.md section 0: write failures do not exist for the controller. At an absent device a
command that only writes answers OK, 0x00 and leaves ERR, BUSUP, T and the whole environment as they were; no micro-step of
any command changes a register; and no frame that writes or selects, of any command, changes ERR, BUSUP or T. Whatever is on
the bus, such a frame does the same to the controller, its response included: "the same response as a good one". -/
def Obligations.LostWriteIsInvisible : Prop :=
  (∀ (i : Instr) (s : State) (d : Device), i.reads = false → s.env.device = .reference d → d.present = false →
    s.seq = .run i 0 →
    ∃ t, exec i s = .next t ∧ t.env = s.env ∧ t.err = s.err ∧ t.busup = s.busup ∧ t.t = s.t ∧
      t.resp = { valid := true, kind := 0b00#2, data := 0x00#8 }) ∧
  (∀ (i : Instr) (k : Nat) (s : State) (d : Device), s.env.device = .reference d → d.present = false →
    s.seq = .run i k → k < i.stepCount →
    ∃ t, exec i s = .next t ∧ t.env.device = .reference d ∧
      (((storedRegister i k s.t).isSome = true ∨ (selectedRegister i k).isSome = true) →
        t.err = s.err ∧ t.busup = s.busup ∧ t.t = s.t)) ∧
  (∀ (i : Instr) (k : Nat) (s s' : State), s.seq = .run i k → agreeButEnv s s' →
    ((storedRegister i k s.t).isSome = true ∨ (selectedRegister i k).isSome = true) →
    outcomesAgree agreeButEnv (exec i s) (exec i s'))

/-! ### The register selector -/

/-- 30_encoding.md R72: the selector table, as its literals: the register each selector names and its offset. Read through the
decoder and the two commands that carry a selector, WRREG and RDREG put that offset on the bus. -/
def Obligations.SelectorTable : Prop :=
  (DevReg.ofRsel 0b000#3 = .pwr ∧ DevReg.ofRsel 0b001#3 = .fmt ∧ DevReg.ofRsel 0b010#3 = .thr ∧
    DevReg.ofRsel 0b011#3 = .dur ∧ DevReg.ofRsel 0b100#3 = .axes ∧ DevReg.ofRsel 0b101#3 = .inten ∧
    DevReg.ofRsel 0b110#3 = .intsrc ∧ DevReg.ofRsel 0b111#3 = .id) ∧
  (DevReg.pwr.offset = 0x2D#8 ∧ DevReg.fmt.offset = 0x31#8 ∧ DevReg.thr.offset = 0x1D#8 ∧ DevReg.dur.offset = 0x21#8 ∧
    DevReg.axes.offset = 0x2A#8 ∧ DevReg.inten.offset = 0x2E#8 ∧ DevReg.intsrc.offset = 0x30#8 ∧ DevReg.id.offset = 0x00#8) ∧
  (∀ reg : DevReg, DevReg.ofRsel reg.rsel = reg) ∧
  ∀ (sel : BitVec 3) (off v : Byte),
    (sel, off) ∈ [(0b000#3, 0x2D#8), (0b001#3, 0x31#8), (0b010#3, 0x1D#8), (0b011#3, 0x21#8), (0b100#3, 0x2A#8),
      (0b101#3, 0x2E#8), (0b110#3, 0x30#8), (0b111#3, 0x00#8)] →
    (∃ i, decode (0b0000#4 ++ 0b0#1 ++ sel ++ v) = .command i ∧ ∀ s : State, s.seq = .run i 0 →
      ∃ t, exec i s = .next t ∧ t.history = s.history ++ [.write 0x53#7 [off, v]]) ∧
    (∃ i, decode (0b0001#4 ++ 0b0#1 ++ sel ++ 0x00#8) = .command i ∧ ∀ s : State, s.seq = .run i 0 →
      ∃ t, exec i s = .next t ∧ t.history = s.history ++ [.write 0x53#7 [off]])
end

