-- ==== Sys2Proof/Laws/Memory.lean ====
section
/-! SUPPORT. Every operation on the register space keeps the canonical form, and so does every operation of the environment
on the reference device. -/

namespace Sys2Proof.Machine

theorem Memory.wf_nil : Memory.wf [] := ⟨List.Pairwise.nil, by simp⟩

theorem Memory.wf_tail {c : Host.Cell} {m : Memory} (h : Memory.wf (c :: m)) : Memory.wf m :=
  ⟨(List.pairwise_cons.mp h.1).2, fun d hd => h.2 d (List.mem_cons_of_mem _ hd)⟩

theorem Memory.erase_wf {m : Memory} (h : m.wf) (a : Nat) : (m.erase a).wf :=
  ⟨h.1.filter _, fun c hc => h.2 c (List.mem_of_mem_filter hc)⟩

/-- An entry of an inserted memory is the new one or an old one. -/
theorem Memory.mem_insert {m : Memory} {a : Nat} {v : Byte} {d : Host.Cell} (h : d ∈ m.insert a v) :
    d = (a, v) ∨ d ∈ m := by
  induction m with
  | nil => simpa [Memory.insert] using h
  | cons c m ih =>
    rw [Memory.insert] at h
    split at h
    · simpa using h
    · split at h
      · rcases List.mem_cons.mp h with h | h
        · exact .inl h
        · exact .inr (List.mem_cons_of_mem _ h)
      · rcases List.mem_cons.mp h with h | h
        · exact .inr (h ▸ List.mem_cons_self)
        · exact (ih h).imp_right (List.mem_cons_of_mem _)

theorem Memory.insert_pairwise {m : Memory} (h : m.wf) (a : Nat) (v : Byte) :
    (m.insert a v).Pairwise (fun c d => c.1 < d.1) := by
  induction m with
  | nil => simp [Memory.insert]
  | cons c m ih =>
    obtain ⟨hc, hm⟩ := List.pairwise_cons.mp h.1
    rw [Memory.insert]
    split
    · rename_i hlt
      refine List.pairwise_cons.mpr ⟨fun d hd => ?_, h.1⟩
      rcases List.mem_cons.mp hd with rfl | hd
      · exact hlt
      · exact Nat.lt_trans hlt (hc d hd)
    · split
      · rename_i heq
        exact List.pairwise_cons.mpr ⟨fun d hd => heq ▸ hc d hd, hm⟩
      · refine List.pairwise_cons.mpr ⟨fun d hd => ?_, ih (Memory.wf_tail h)⟩
        rcases Memory.mem_insert hd with rfl | hd
        · simp only; omega
        · exact hc d hd

theorem Memory.insert_wf {m : Memory} (h : m.wf) {a : Nat} (ha : a < 256) {v : Byte} (hv : v ≠ Memory.unlisted) :
    (m.insert a v).wf := by
  refine ⟨Memory.insert_pairwise h a v, fun c hc => ?_⟩
  rcases Memory.mem_insert hc with rfl | hc
  · exact ⟨ha, hv⟩
  · exact h.2 c hc

/-- A write keeps the canonical form. -/
theorem Memory.write_wf {m : Memory} (h : m.wf) {a : Nat} (ha : a < 256) (v : Byte) : (m.write a v).wf := by
  rw [Memory.write]
  split
  · exact Memory.erase_wf h a
  · rename_i hv; exact Memory.insert_wf h ha hv

theorem Device.setReg_wf {d : Device} (h : d.regs.wf) (off v : Byte) : (d.setReg off v).regs.wf :=
  Memory.write_wf h off.isLt v

theorem Device.onWrite_wf {d : Device} (h : d.regs.wf) (bytes : List Byte) : (d.onWrite bytes).regs.wf := by
  unfold Device.onWrite
  split
  · match bytes with
    | [] => exact h
    | [_] => exact h
    | [off, v] => exact Device.setReg_wf h off v
    | _ :: _ :: _ :: _ => exact h
  · exact h

theorem Device.onRead_wf {d : Device} (h : d.regs.wf) : d.onRead.regs.wf := by
  rw [Device.onRead]
  split
  · exact Device.setReg_wf h _ _
  · exact h

theorem Device.move_wf {d : Device} (h : d.regs.wf) (mv : EnvMove) : (d.move mv).regs.wf := by
  cases mv with
  | setRegister off v => exact Device.setReg_wf h off v
  | selectRegister off => exact h

theorem Device.standard_wf : Device.standard.regs.wf := by decide

end Sys2Proof.Machine
end

