-- ==== Sys2Proof/Laws/State.lean ====
section
/-! SUPPORT. What each shared operation does to each field of the state: one lemma per field per operation, so that no proof
unfolds a record update. -/

namespace Sys2Proof.Machine

variable (s : State)

/-! busStartup -/

@[simp] theorem busStartup_err : (busStartup s).err = s.err := rfl
@[simp] theorem busStartup_busup : (busStartup s).busup = s.busup := rfl
@[simp] theorem busStartup_seq : (busStartup s).seq = s.seq := rfl
@[simp] theorem busStartup_t : (busStartup s).t = s.t := rfl
@[simp] theorem busStartup_resp : (busStartup s).resp = s.resp := rfl
@[simp] theorem busStartup_history : (busStartup s).history = s.history ++ [.startup] := rfl
@[simp] theorem busStartup_responses : (busStartup s).responses = s.responses := rfl
@[simp] theorem busStartup_host : (busStartup s).host = s.host := rfl
@[simp] theorem busStartup_env : (busStartup s).env = s.env := rfl

/-! busWrite -/

@[simp] theorem busWrite_err (a : BusAddr) (bytes : List Byte) : (busWrite a bytes s).err = s.err := rfl
@[simp] theorem busWrite_busup (a : BusAddr) (bytes : List Byte) : (busWrite a bytes s).busup = s.busup := rfl
@[simp] theorem busWrite_seq (a : BusAddr) (bytes : List Byte) : (busWrite a bytes s).seq = s.seq := rfl
@[simp] theorem busWrite_t (a : BusAddr) (bytes : List Byte) : (busWrite a bytes s).t = s.t := rfl
@[simp] theorem busWrite_resp (a : BusAddr) (bytes : List Byte) : (busWrite a bytes s).resp = s.resp := rfl
@[simp] theorem busWrite_history (a : BusAddr) (bytes : List Byte) :
    (busWrite a bytes s).history = s.history ++ [.write a bytes] := rfl
@[simp] theorem busWrite_responses (a : BusAddr) (bytes : List Byte) : (busWrite a bytes s).responses = s.responses := rfl
@[simp] theorem busWrite_host (a : BusAddr) (bytes : List Byte) : (busWrite a bytes s).host = s.host := rfl
@[simp] theorem busWrite_env (a : BusAddr) (bytes : List Byte) : (busWrite a bytes s).env = s.env.onWrite a bytes := rfl

/-! busRead -/

@[simp] theorem busRead_err (a : BusAddr) (n : Nat) : (busRead a n s).err = s.err := rfl
@[simp] theorem busRead_busup (a : BusAddr) (n : Nat) : (busRead a n s).busup = s.busup := rfl
@[simp] theorem busRead_seq (a : BusAddr) (n : Nat) : (busRead a n s).seq = s.seq := rfl
@[simp] theorem busRead_t (a : BusAddr) (n : Nat) : (busRead a n s).t = s.t := rfl
@[simp] theorem busRead_resp (a : BusAddr) (n : Nat) : (busRead a n s).resp = s.resp := rfl
@[simp] theorem busRead_history (a : BusAddr) (n : Nat) :
    (busRead a n s).history = s.history ++ [.read a n (busReadAnswer a n s)] := rfl
@[simp] theorem busRead_responses (a : BusAddr) (n : Nat) : (busRead a n s).responses = s.responses := rfl
@[simp] theorem busRead_host (a : BusAddr) (n : Nat) : (busRead a n s).host = s.host := rfl
@[simp] theorem busRead_env (a : BusAddr) (n : Nat) : (busRead a n s).env = s.env.afterRead a n := rfl

/-! writeTxn -/

@[simp] theorem writeTxn_err (off v : Byte) : (writeTxn off v s).err = s.err := rfl
@[simp] theorem writeTxn_busup (off v : Byte) : (writeTxn off v s).busup = s.busup := rfl
@[simp] theorem writeTxn_seq (off v : Byte) : (writeTxn off v s).seq = s.seq := rfl
@[simp] theorem writeTxn_t (off v : Byte) : (writeTxn off v s).t = s.t := rfl
@[simp] theorem writeTxn_resp (off v : Byte) : (writeTxn off v s).resp = s.resp := rfl
@[simp] theorem writeTxn_history (off v : Byte) :
    (writeTxn off v s).history = s.history ++ [.write Config.devAddr [off, v]] := rfl
@[simp] theorem writeTxn_responses (off v : Byte) : (writeTxn off v s).responses = s.responses := rfl
@[simp] theorem writeTxn_host (off v : Byte) : (writeTxn off v s).host = s.host := rfl
@[simp] theorem writeTxn_env (off v : Byte) : (writeTxn off v s).env = s.env.onWrite Config.devAddr [off, v] := rfl

/-! readTxnOffset -/

@[simp] theorem readTxnOffset_err (off : Byte) : (readTxnOffset off s).err = s.err := rfl
@[simp] theorem readTxnOffset_busup (off : Byte) : (readTxnOffset off s).busup = s.busup := rfl
@[simp] theorem readTxnOffset_seq (off : Byte) : (readTxnOffset off s).seq = s.seq := rfl
@[simp] theorem readTxnOffset_t (off : Byte) : (readTxnOffset off s).t = s.t := rfl
@[simp] theorem readTxnOffset_resp (off : Byte) : (readTxnOffset off s).resp = s.resp := rfl
@[simp] theorem readTxnOffset_history (off : Byte) :
    (readTxnOffset off s).history = s.history ++ [.write Config.devAddr [off]] := rfl
@[simp] theorem readTxnOffset_responses (off : Byte) : (readTxnOffset off s).responses = s.responses := rfl
@[simp] theorem readTxnOffset_host (off : Byte) : (readTxnOffset off s).host = s.host := rfl
@[simp] theorem readTxnOffset_env (off : Byte) : (readTxnOffset off s).env = s.env.onWrite Config.devAddr [off] := rfl

/-! readTxnByte -/

@[simp] theorem readTxnByte_err :
    (readTxnByte s).err = errAfterRead s.err (busReadAnswer Config.devAddr Config.readLength s) := rfl
@[simp] theorem readTxnByte_busup : (readTxnByte s).busup = s.busup := rfl
@[simp] theorem readTxnByte_seq : (readTxnByte s).seq = s.seq := rfl
@[simp] theorem readTxnByte_t : (readTxnByte s).t = readByte (busReadAnswer Config.devAddr Config.readLength s) := rfl
@[simp] theorem readTxnByte_resp : (readTxnByte s).resp = s.resp := rfl
@[simp] theorem readTxnByte_history :
    (readTxnByte s).history =
      s.history ++ [.read Config.devAddr Config.readLength (busReadAnswer Config.devAddr Config.readLength s)] := rfl
@[simp] theorem readTxnByte_responses : (readTxnByte s).responses = s.responses := rfl
@[simp] theorem readTxnByte_host : (readTxnByte s).host = s.host := rfl
@[simp] theorem readTxnByte_env : (readTxnByte s).env = s.env.afterRead Config.devAddr Config.readLength := rfl

/-! respond -/

@[simp] theorem respond_err (kind : RespKind) (data : Byte) : (respond kind data s).err = s.err := rfl
@[simp] theorem respond_busup (kind : RespKind) (data : Byte) : (respond kind data s).busup = s.busup := rfl
@[simp] theorem respond_seq (kind : RespKind) (data : Byte) : (respond kind data s).seq = .idle := rfl
@[simp] theorem respond_t (kind : RespKind) (data : Byte) : (respond kind data s).t = s.t := rfl
@[simp] theorem respond_resp (kind : RespKind) (data : Byte) :
    (respond kind data s).resp = { valid := true, kind := kind.code, data := data } := rfl
@[simp] theorem respond_history (kind : RespKind) (data : Byte) : (respond kind data s).history = s.history := rfl
@[simp] theorem respond_responses (kind : RespKind) (data : Byte) :
    (respond kind data s).responses = s.responses ++ [(kind.code, data)] := rfl
@[simp] theorem respond_host (kind : RespKind) (data : Byte) : (respond kind data s).host = s.host := rfl
@[simp] theorem respond_env (kind : RespKind) (data : Byte) : (respond kind data s).env = s.env := rfl

/-! refuse -/

@[simp] theorem refuse_err (kind : RespKind) : (refuse kind s).err = s.err := rfl
@[simp] theorem refuse_busup (kind : RespKind) : (refuse kind s).busup = s.busup := rfl
@[simp] theorem refuse_seq (kind : RespKind) : (refuse kind s).seq = .idle := rfl
@[simp] theorem refuse_t (kind : RespKind) : (refuse kind s).t = s.t := rfl
@[simp] theorem refuse_resp (kind : RespKind) :
    (refuse kind s).resp = { valid := true, kind := kind.code, data := 0x00#8 } := rfl
@[simp] theorem refuse_history (kind : RespKind) : (refuse kind s).history = s.history := rfl
@[simp] theorem refuse_responses (kind : RespKind) : (refuse kind s).responses = s.responses ++ [(kind.code, 0x00#8)] := rfl
@[simp] theorem refuse_host (kind : RespKind) : (refuse kind s).host = s.host := rfl
@[simp] theorem refuse_env (kind : RespKind) : (refuse kind s).env = s.env := rfl

/-! takeWord -/

@[simp] theorem takeWord_err : (takeWord s).err = s.err := rfl
@[simp] theorem takeWord_busup : (takeWord s).busup = s.busup := rfl
@[simp] theorem takeWord_seq : (takeWord s).seq = s.seq := rfl
@[simp] theorem takeWord_t : (takeWord s).t = s.t := rfl
@[simp] theorem takeWord_resp : (takeWord s).resp = { s.resp with valid := false } := rfl
@[simp] theorem takeWord_history : (takeWord s).history = s.history := rfl
@[simp] theorem takeWord_responses : (takeWord s).responses = s.responses := rfl
@[simp] theorem takeWord_host : (takeWord s).host = s.host.tail := rfl
@[simp] theorem takeWord_env : (takeWord s).env = s.env := rfl

/-! environmentMoves -/

@[simp] theorem environmentMoves_err : (environmentMoves s).err = s.err := rfl
@[simp] theorem environmentMoves_busup : (environmentMoves s).busup = s.busup := rfl
@[simp] theorem environmentMoves_seq : (environmentMoves s).seq = s.seq := rfl
@[simp] theorem environmentMoves_t : (environmentMoves s).t = s.t := rfl
@[simp] theorem environmentMoves_resp : (environmentMoves s).resp = s.resp := rfl
@[simp] theorem environmentMoves_history : (environmentMoves s).history = s.history := rfl
@[simp] theorem environmentMoves_responses : (environmentMoves s).responses = s.responses := rfl
@[simp] theorem environmentMoves_host : (environmentMoves s).host = s.host := rfl
@[simp] theorem environmentMoves_env : (environmentMoves s).env = s.env.advance := rfl

/-! takeReset -/

@[simp] theorem takeReset_err : (takeReset s).err = false := rfl
@[simp] theorem takeReset_busup : (takeReset s).busup = false := rfl
@[simp] theorem takeReset_seq : (takeReset s).seq = .idle := rfl
@[simp] theorem takeReset_t : (takeReset s).t = State.reset.t := rfl
@[simp] theorem takeReset_resp : (takeReset s).resp = State.reset.resp := rfl
@[simp] theorem takeReset_history : (takeReset s).history = [] := rfl
@[simp] theorem takeReset_responses : (takeReset s).responses = [] := rfl
@[simp] theorem takeReset_host : (takeReset s).host = s.host.tail := rfl
@[simp] theorem takeReset_env : (takeReset s).env = s.env := rfl

/-! presentWord -/

@[simp] theorem presentWord_err (w : Word) : (presentWord w s).err = s.err := rfl
@[simp] theorem presentWord_busup (w : Word) : (presentWord w s).busup = s.busup := rfl
@[simp] theorem presentWord_seq (w : Word) : (presentWord w s).seq = .idle := rfl
@[simp] theorem presentWord_t (w : Word) : (presentWord w s).t = s.t := rfl
@[simp] theorem presentWord_resp (w : Word) : (presentWord w s).resp = s.resp := rfl
@[simp] theorem presentWord_history (w : Word) : (presentWord w s).history = s.history := rfl
@[simp] theorem presentWord_responses (w : Word) : (presentWord w s).responses = s.responses := rfl
@[simp] theorem presentWord_host (w : Word) : (presentWord w s).host = .word w :: s.host := rfl
@[simp] theorem presentWord_env (w : Word) : (presentWord w s).env = s.env := rfl

end Sys2Proof.Machine
end

