-- ==== Sys2Proof/Laws/Ops.lean ====
section
/-! SUPPORT. One lemma per shared operation that says once what it can do: the read transaction's byte and flag, one
micro-step, one step of a command, one step of the machine, the environment's answer. Provers cite these instead of unfolding. -/

namespace Sys2Proof.Machine

/-! ### Reads -/

theorem readByte_eq_byteOf (r : List Byte) : readByte r = byteOf r := by
  match r with
  | [] => rfl
  | [_] => rfl
  | _ :: _ :: _ => simp [readByte, byteOf, Config.sentinel]

theorem readFailed_eq (r : List Byte) : readFailed r = (r.length != 1) := rfl

theorem errAfterRead_eq (err : Bool) (r : List Byte) : errAfterRead err r = (err || r.length != 1) := by
  rw [errAfterRead, readFailed_eq]

/-- The identity test of INIT sees exactly the one-element list [0xE5]. -/
theorem identityResult_byteOf (r : List Byte) :
    identityResult (byteOf r) = if r = [0xE5#8] then 0x01#8 else 0x00#8 := by
  match r with
  | [] => rfl
  | [b] => simp [identityResult, byteOf, Config.devIdExpect]
  | _ :: _ :: _ => simp [identityResult, byteOf, Config.devIdExpect]

/-! ### The environment -/

theorem Environment.answer_override {e : Environment} {r : List Byte} {os : List (Option (List Byte))}
    (h : e.overrides = some r :: os) (hist : List BusEvent) (a : BusAddr) (n : Nat) : e.answer hist a n = r := by
  simp [Environment.answer, h]

theorem Environment.answer_reference {e : Environment} {d : Device} (ho : e.overrides = [])
    (hd : e.device = .reference d) (hist : List BusEvent) :
    e.answer hist Config.devAddr Config.readLength = d.answer := by
  simp [Environment.answer, Environment.busAnswer, ho, hd]

@[simp] theorem Environment.onWrite_overrides (e : Environment) (a : BusAddr) (bytes : List Byte) :
    (e.onWrite a bytes).overrides = e.overrides := by
  rw [Environment.onWrite]; split
  · rfl
  · split <;> rfl

@[simp] theorem Environment.onWrite_moves (e : Environment) (a : BusAddr) (bytes : List Byte) :
    (e.onWrite a bytes).moves = e.moves := by
  rw [Environment.onWrite]; split
  · rfl
  · split <;> rfl

@[simp] theorem Environment.onWrite_reads (e : Environment) (a : BusAddr) (bytes : List Byte) :
    (e.onWrite a bytes).reads = e.reads := by
  rw [Environment.onWrite]; split
  · rfl
  · split <;> rfl

@[simp] theorem Environment.afterRead_overrides (e : Environment) (a : BusAddr) (n : Nat) :
    (e.afterRead a n).overrides = e.overrides.tail := rfl

@[simp] theorem Environment.afterRead_moves (e : Environment) (a : BusAddr) (n : Nat) :
    (e.afterRead a n).moves = e.moves := rfl

@[simp] theorem Environment.advance_overrides (e : Environment) : e.advance.overrides = e.overrides := rfl

@[simp] theorem Environment.advance_moves (e : Environment) : e.advance.moves = e.moves.tail := rfl

theorem Environment.onWrite_reference {e : Environment} {d : Device} (hd : e.device = .reference d) (bytes : List Byte) :
    (e.onWrite Config.devAddr bytes).device = .reference (d.onWrite bytes) := by
  simp [Environment.onWrite, hd]

theorem Environment.onWrite_canonical {e : Environment} (h : BusDevice.canonical e.device) (a : BusAddr)
    (bytes : List Byte) : BusDevice.canonical (e.onWrite a bytes).device := by
  rw [Environment.onWrite]
  split
  · exact h
  · rename_i d hd
    split
    · exact Device.onWrite_wf (by simpa [BusDevice.canonical, hd] using h) bytes
    · exact h

theorem BusDevice.onRead_canonical {b : BusDevice} (h : BusDevice.canonical b) (a : BusAddr) (n : Nat) :
    BusDevice.canonical (b.onRead a n) := by
  cases b with
  | unknown => exact h
  | reference d =>
    rw [BusDevice.onRead]
    split
    · exact Device.onRead_wf h
    · exact h

theorem Environment.afterRead_canonical {e : Environment} (h : BusDevice.canonical e.device) (a : BusAddr) (n : Nat) :
    BusDevice.canonical (e.afterRead a n).device := by
  rw [Environment.afterRead]
  simp only
  split
  · exact h
  · exact BusDevice.onRead_canonical h a n

theorem BusDevice.move_canonical {b : BusDevice} (h : BusDevice.canonical b) (mv : EnvMove) :
    BusDevice.canonical (b.move mv) := by
  cases b with
  | unknown => exact h
  | reference d => exact Device.move_wf h mv

theorem BusDevice.moves_canonical (mvs : List EnvMove) {b : BusDevice} (h : BusDevice.canonical b) :
    BusDevice.canonical (mvs.foldl BusDevice.move b) := by
  induction mvs generalizing b with
  | nil => exact h
  | cons mv mvs ih => exact ih (BusDevice.move_canonical h mv)

theorem Environment.advance_canonical {e : Environment} (h : BusDevice.canonical e.device) :
    BusDevice.canonical e.advance.device := BusDevice.moves_canonical _ h

/-! ### One micro-step -/

/-- What a micro-step can do: it leaves SEQ, RESP, the response log, the host and the planned moves alone, and it is one of:
the clearing of ERR, the startup, a write frame, a read frame. -/
theorem MicroStep.perform_cases (m : MicroStep) (s : State) :
    ((m.perform s).seq = s.seq ∧ (m.perform s).resp = s.resp ∧ (m.perform s).responses = s.responses ∧
      (m.perform s).host = s.host ∧ (m.perform s).env.moves = s.env.moves) ∧
    ((m = .clearErr ∧ m.perform s = { s with err := false }) ∨
      (m = .startBus ∧ m.perform s = { s with history := s.history ++ [.startup], busup := true }) ∨
      (∃ bytes, m.perform s = { s with history := s.history ++ [.write Config.devAddr bytes],
                                       env := s.env.onWrite Config.devAddr bytes }) ∨
      (m = .readFrame ∧ m.perform s = readTxnByte s)) := by
  cases m with
  | clearErr => exact ⟨⟨rfl, rfl, rfl, rfl, rfl⟩, .inl ⟨rfl, rfl⟩⟩
  | startBus => exact ⟨⟨rfl, rfl, rfl, rfl, rfl⟩, .inr (.inl ⟨rfl, rfl⟩)⟩
  | write off v => exact ⟨⟨rfl, rfl, rfl, rfl, by simp [perform]⟩, .inr (.inr (.inl ⟨_, rfl⟩))⟩
  | offsetFrame off => exact ⟨⟨rfl, rfl, rfl, rfl, by simp [perform]⟩, .inr (.inr (.inl ⟨_, rfl⟩))⟩
  | readFrame => exact ⟨⟨rfl, rfl, rfl, rfl, rfl⟩, .inr (.inr (.inr ⟨rfl, rfl⟩))⟩
  | writeMerged off mask n => exact ⟨⟨rfl, rfl, rfl, rfl, by simp [perform]⟩, .inr (.inr (.inl ⟨_, rfl⟩))⟩

/-! ### One step of a command -/

theorem commandStep_idle {i : Instr} {steps : List MicroStep} {result : Byte → Byte} {s : State} (h : s.seq = .idle) :
    commandStep i steps result s = .next (acceptCommand i s) := by
  simp [commandStep, h]

/-- A micro-step that is not the last: SEQ goes on. -/
theorem commandStep_mid {i c : Instr} {steps : List MicroStep} {result : Byte → Byte} {s : State} {k : Nat} {m : MicroStep}
    (h : s.seq = .run c k) (hm : steps[k]? = some m) (hk : k + 1 ≠ steps.length) :
    commandStep i steps result s = .next { m.perform s with seq := .run i (k + 1) } := by
  simp [commandStep, h, hm, hk]

/-- The last micro-step: the command responds. -/
theorem commandStep_last {i c : Instr} {steps : List MicroStep} {result : Byte → Byte} {s : State} {k : Nat} {m : MicroStep}
    (h : s.seq = .run c k) (hm : steps[k]? = some m) (hk : k + 1 = steps.length) :
    commandStep i steps result s = .next (respond .ok (result (m.perform s).t) (m.perform s)) := by
  simp [commandStep, h, hm, hk]

/-- All a step of a command that goes on can be: its acceptance, a middle micro-step, its last micro-step. -/
theorem commandStep_cases {i : Instr} {steps : List MicroStep} {result : Byte → Byte} {s t : State}
    (h : commandStep i steps result s = .next t) :
    (s.seq = .idle ∧ t = acceptCommand i s) ∨
    ∃ c k m, s.seq = .run c k ∧ steps[k]? = some m ∧
      ((k + 1 ≠ steps.length ∧ t = { m.perform s with seq := .run i (k + 1) }) ∨
        (k + 1 = steps.length ∧ t = respond .ok (result (m.perform s).t) (m.perform s))) := by
  cases hs : s.seq with
  | idle => exact .inl ⟨rfl, by simpa [commandStep, hs] using h.symm⟩
  | run c k =>
    cases hm : steps[k]? with
    | none => simp [commandStep, hs, hm] at h
    | some m =>
      refine .inr ⟨c, k, m, rfl, hm, ?_⟩
      by_cases hk : k + 1 = steps.length
      · exact .inr ⟨hk, by simpa [commandStep, hs, hm, hk] using h.symm⟩
      · exact .inl ⟨hk, by simpa [commandStep, hs, hm, hk] using h.symm⟩

/-- What acceptance can do (40_bus_transaction_layer.md R100). -/
theorem acceptCommand_cases (i : Instr) (s : State) :
    (i ≠ .init ∧ s.busup = false ∧ acceptCommand i s = refuse .notReady (takeWord s)) ∨
    ((i = .init ∨ s.busup = true) ∧ acceptCommand i s = { takeWord s with seq := .run i 0 }) := by
  by_cases h : i ≠ .init ∧ s.busup = false
  · exact .inl ⟨h.1, h.2, by rw [acceptCommand, if_pos h]⟩
  · refine .inr ⟨?_, by rw [acceptCommand, if_neg h]⟩
    by_cases hi : i = .init
    · exact .inl hi
    · exact .inr (by simpa [hi] using h)

/-! ### The micro-steps of each command -/

/-- The micro-steps of a command, as its meaning lists them. -/
def microSteps : Instr → List MicroStep
  | .wrreg reg v => [.write reg.offset v]
  | .rdreg reg => readTxn reg.offset
  | .init => initSteps
  | .setrange code => readModifyWrite Config.offFmt rangeOwnedBits (rangeCode code)
  | .settapxyz x y z => readModifyWrite Config.offAxes axesOwnedBits (tapMask x y z)
  | .settapthr v => [.write Config.offThr v]
  | .settapdur v => [.write Config.offDur v]
  | .setinten f => [.write Config.offInten f]
  | .getintsrc => readTxn Config.offIntsrc

/-- The response data of a command, as its meaning computes it from T. -/
def resultOf : Instr → Byte → Byte
  | .wrreg _ _ => noData
  | .rdreg _ => dataT
  | .init => identityResult
  | .setrange _ => noData
  | .settapxyz _ _ _ => noData
  | .settapthr _ => noData
  | .settapdur _ => noData
  | .setinten _ => noData
  | .getintsrc => dataT

/-- Every meaning is one step of its command over its own micro-steps. -/
theorem exec_eq_commandStep (i : Instr) (s : State) : exec i s = commandStep i (microSteps i) (resultOf i) s := by
  cases i <;> rfl

theorem length_microSteps (i : Instr) : (microSteps i).length = i.stepCount := by cases i <;> rfl

/-- The micro-step the tables say stores is a write transaction of that register and value. -/
theorem microSteps_stored {i : Instr} {k : Nat} {t off v : Byte} (h : storedRegister i k t = some (off, v)) :
    ∃ m, (microSteps i)[k]? = some m ∧ ∀ s : State, s.t = t → m.perform s = writeTxn off v s := by
  cases i <;> simp only [storedRegister, reduceCtorEq, Option.ite_none_right_eq_some, Option.some.injEq, Prod.mk.injEq] at h <;>
    obtain ⟨rfl, rfl, rfl⟩ := h <;> exact ⟨_, rfl, fun s hs => by subst hs; rfl⟩

/-- The micro-step the tables say selects is the offset frame of that register. -/
theorem microSteps_selected {i : Instr} {k : Nat} {off : Byte} (h : selectedRegister i k = some off) :
    ∃ m, (microSteps i)[k]? = some m ∧ ∀ s : State, m.perform s = readTxnOffset off s := by
  cases i <;> simp only [selectedRegister, reduceCtorEq, Option.ite_none_right_eq_some, Option.some.injEq] at h <;>
    obtain ⟨rfl, rfl⟩ := h <;> exact ⟨_, rfl, fun _ => rfl⟩

/-- A micro-step that neither stores nor selects is the clearing of ERR, the startup, or a read frame. -/
theorem microSteps_neither {i : Instr} {k : Nat} {t : Byte} {m : MicroStep} (hm : (microSteps i)[k]? = some m)
    (hs : storedRegister i k t = none) (ho : selectedRegister i k = none) :
    (i = .init ∧ k = 0 ∧ m = .clearErr) ∨ (i = .init ∧ k = 1 ∧ m = .startBus) ∨ m = .readFrame := by
  cases i <;> rcases k with _ | _ | _ | _ | _ | k <;>
    simp_all [storedRegister, selectedRegister, microSteps, readTxn, readModifyWrite, initSteps, Config.initPwrSeq]

/-! ### One step of the machine -/

/-- All a step that goes on can be. -/
theorem step_cases {s t : State} (h : step s = .next t) :
    (nextAction (environmentMoves s) = .wait ∧ t = environmentMoves s) ∨
    (∃ i, nextAction (environmentMoves s) = .command i ∧ exec i (environmentMoves s) = .next t) ∨
    (nextAction (environmentMoves s) = .illegal ∧ t = acceptIllegal (environmentMoves s)) ∨
    (nextAction (environmentMoves s) = .reset ∧ t = takeReset (environmentMoves s)) := by
  rw [step, controllerStep] at h
  split at h
  · rename_i ha; exact .inl ⟨ha, by simpa using h.symm⟩
  · rename_i i ha; exact .inr (.inl ⟨i, ha, h⟩)
  · rename_i ha; exact .inr (.inr (.inl ⟨ha, by simpa using h.symm⟩))
  · rename_i ha; exact .inr (.inr (.inr ⟨ha, by simpa using h.symm⟩))
  · simp at h

/-- While a command is in flight the next action is that command's, unless reset is asserted at once. -/
theorem nextAction_run {s : State} {i : Instr} {k : Nat} (h : s.seq = .run i k) (hr : s.host.head? ≠ some .resetNow) :
    nextAction s = .command i := by
  rw [nextAction, h]
  match hh : s.host with
  | [] => rfl
  | .word _ :: _ => rfl
  | .reset :: _ => rfl
  | .resetNow :: _ => simp [hh] at hr

/-- While a command is in flight a step that goes on is a step of that command. -/
theorem step_run {s t : State} {i : Instr} {k : Nat} (h : s.seq = .run i k) (hs : step s = .next t) :
    exec i (environmentMoves s) = .next t := by
  have ha : nextAction (environmentMoves s) = .command i ∨ nextAction (environmentMoves s) = .resetMidCommand := by
    rw [nextAction, environmentMoves_seq, h]
    simp only
    split <;> simp
  rw [step, controllerStep] at hs
  rcases ha with ha | ha <;> rw [ha] at hs
  · exact hs
  · simp at hs

/-- A step at Idle with a word on the port. -/
theorem nextAction_word {s : State} {w : Word} {rest : List HostInput} (h : s.seq = .idle) (hh : s.host = .word w :: rest) :
    nextAction s = match decode w with
      | .command i => .command i
      | .illegal _ => .illegal := by
  cases hd : decode w <;> simp [nextAction, portAction, h, hh, hd]

end Sys2Proof.Machine
end

