-- ==== Sys2Proof/Laws/PerInstr.lean ====
section
/-! SUPPORT. Statements about every command as syntax, one lemma per constructor. `ReservedBit`: the word of every command has
its operation code in bits 15:12 and the reserved bit z clear (30_encoding.md R71). -/

namespace Sys2Proof.Laws.ReservedBit

/-- Bits 15:12 of the command's word are its operation code, and bit 11 is 0 (30_encoding.md R71). -/
def Statement (i : Instr) : Prop := (encode i).extractLsb' 12 4 = i.op ∧ (encode i).getLsbD 11 = false

/-- The two facts for any word of format C16. -/
theorem formatC16_fields (op : BitVec 4) (rsel : BitVec 3) (imm8 : Byte) :
    (formatC16 op rsel imm8).extractLsb' 12 4 = op ∧ (formatC16 op rsel imm8).getLsbD 11 = false := by
  constructor
  · ext k hk
    simp only [formatC16, BitVec.getElem_extractLsb', BitVec.getLsbD_append]
    have h1 : ¬ (12 + k < 8) := by omega
    have h2 : ¬ (12 + k - 8 < 3) := by omega
    have h3 : ¬ (12 + k - 8 - 3 < 1) := by omega
    have h4 : 12 + k - 8 - 3 - 1 = k := by omega
    simp [h1, h2, h3, h4, BitVec.getLsbD_eq_getElem hk]
  · rw [formatC16, BitVec.getLsbD_append, BitVec.getLsbD_append, BitVec.getLsbD_append]
    simp

theorem wrreg (r : DevReg) (v : Byte) : Statement (.wrreg r v) := formatC16_fields _ _ _
theorem rdreg (r : DevReg) : Statement (.rdreg r) := formatC16_fields _ _ _
theorem init : Statement .init := formatC16_fields _ _ _
theorem setrange (c : Byte) : Statement (.setrange c) := formatC16_fields _ _ _
theorem settapxyz (x y z : Bool) : Statement (.settapxyz x y z) := formatC16_fields _ _ _
theorem settapthr (v : Byte) : Statement (.settapthr v) := formatC16_fields _ _ _
theorem settapdur (v : Byte) : Statement (.settapdur v) := formatC16_fields _ _ _
theorem setinten (f : Byte) : Statement (.setinten f) := formatC16_fields _ _ _
theorem getintsrc : Statement .getintsrc := formatC16_fields _ _ _

end Sys2Proof.Laws.ReservedBit
end

