-- ==== Sys2Proof/Laws/Run.lean ====
section
/-! SUPPORT. Running a command step by step: a run peels off one step, and a step of a command in flight is its micro-step
with the environment's moves made first. -/

namespace Sys2Proof.Machine

theorem runSteps_zero (s : State) : runSteps 0 s = .next s := rfl

/-- A run whose first step goes on to `t` goes on from `t`. -/
theorem runSteps_next {n : Nat} {s t : State} (h : step s = .next t) : runSteps (n + 1) s = runSteps n t := by
  have h' : Sys2Proof.core.step s = .next t := h
  simp only [runSteps, Host.Core.run, h']
  rfl

/-- A run that goes on made a first step that goes on. -/
theorem runSteps_succ_cases {n : Nat} {s t : State} (h : runSteps (n + 1) s = .next t) :
    ∃ u, step s = .next u ∧ runSteps n u = .next t := by
  cases hs : step s with
  | next u => exact ⟨u, rfl, by rw [← h, runSteps_next hs]⟩
  | fault f =>
    have h' : Sys2Proof.core.step s = .fault f := hs
    simp [runSteps, Host.Core.run, h'] at h
  | refused r =>
    have h' : Sys2Proof.core.step s = .refused r := hs
    simp [runSteps, Host.Core.run, h'] at h

/-- A run of `a + b` steps is a run of `b` steps after a run of `a`. -/
theorem runSteps_add {a b : Nat} {s t : State} (h : runSteps a s = .next t) : runSteps (a + b) s = runSteps b t := by
  induction a generalizing s with
  | zero =>
    rw [runSteps_zero, Host.Outcome.next.injEq] at h
    rw [h, Nat.zero_add]
  | succ a ih =>
    obtain ⟨u, hs, hu⟩ := runSteps_succ_cases h
    rw [Nat.succ_add, runSteps_next hs, ih hu]

/-- A step of a command in flight that is not its last micro-step. -/
theorem step_mid {s : State} {i : Instr} {k : Nat} {m : MicroStep} (h : s.seq = .run i k)
    (hr : s.host.head? ≠ some .resetNow) (hm : (microSteps i)[k]? = some m) (hk : k + 1 ≠ (microSteps i).length) :
    step s = .next { m.perform (environmentMoves s) with seq := .run i (k + 1) } := by
  have ha : nextAction (environmentMoves s) = .command i := nextAction_run (k := k) (by simpa using h) (by simpa using hr)
  rw [step, controllerStep, ha]
  simp only [exec_eq_commandStep]
  rw [commandStep_mid (by simpa using h) hm hk]

/-- The last micro-step of a command in flight. -/
theorem step_last {s : State} {i : Instr} {k : Nat} {m : MicroStep} (h : s.seq = .run i k)
    (hr : s.host.head? ≠ some .resetNow) (hm : (microSteps i)[k]? = some m) (hk : k + 1 = (microSteps i).length) :
    step s = .next (respond .ok (resultOf i (m.perform (environmentMoves s)).t) (m.perform (environmentMoves s))) := by
  have ha : nextAction (environmentMoves s) = .command i := nextAction_run (k := k) (by simpa using h) (by simpa using hr)
  rw [step, controllerStep, ha]
  simp only [exec_eq_commandStep]
  rw [commandStep_last (by simpa using h) hm hk]

end Sys2Proof.Machine
end

