-- ==== Sys2Proof/Tests/Slice0.lean ====
section
/-! SUPPORT. The model's own tests. Expected results come from the spec: the worked encodings of 30_encoding.md R84, the
vectors of 95_test_vectors.md (V-DECODE, V-WRREG, V-RDREG, V-INIT, V-SETRANGE, V-SETTAPXYZ, V-SETTAPTHR, V-SETINTEN,
V-GETINTSRC, V-REFUSE, S4, S5, P7). Then one witness per statement that has hypotheses. -/

open Sys2Proof Sys2Proof.Machine

namespace Sys2Proof.Tests

/-! ### Well-formedness: each check of 30_encoding.md R79 refuses an ill-formed line -/

theorem test_wellFormed_refuses_wrreg_256 : AsmLine.wellFormed (.wrreg .pwr 256) = false := by decide
theorem test_wellFormed_refuses_setrange_256 : AsmLine.wellFormed (.setrange 256) = false := by decide
theorem test_wellFormed_refuses_settapxyz_2 :
    AsmLine.wellFormed (.settapxyz 2 0 0) = false ∧ AsmLine.wellFormed (.settapxyz 0 2 0) = false ∧
      AsmLine.wellFormed (.settapxyz 0 0 2) = false := by decide
theorem test_wellFormed_refuses_settapthr_256 : AsmLine.wellFormed (.settapthr 256) = false := by decide
theorem test_wellFormed_refuses_settapdur_256 : AsmLine.wellFormed (.settapdur 256) = false := by decide
theorem test_wellFormed_refuses_setinten_256 : AsmLine.wellFormed (.setinten 256) = false := by decide
theorem test_wellFormed_accepts_255 : AsmLine.wellFormed (.wrreg .id 255) = true := by decide

/-! ### Decoding: words written bit by bit from 30_encoding.md R71 to R74, as op z rsel imm8 -/

theorem test_decode_wrreg : decode (0b0000#4 ++ 0b0#1 ++ 0b100#3 ++ 0b00000111#8) = .command (.wrreg .axes 0x07#8) := by decide
theorem test_decode_rdreg : decode (0b0001#4 ++ 0b0#1 ++ 0b110#3 ++ 0b00000000#8) = .command (.rdreg .intsrc) := by decide
theorem test_decode_init : decode (0b0010#4 ++ 0b0#1 ++ 0b000#3 ++ 0b00000000#8) = .command .init := by decide
theorem test_decode_setrange : decode (0b0011#4 ++ 0b0#1 ++ 0b000#3 ++ 0b11111110#8) = .command (.setrange 0xFE#8) := by decide
theorem test_decode_settapxyz :
    decode (0b0100#4 ++ 0b0#1 ++ 0b000#3 ++ 0b00000110#8) = .command (.settapxyz true true false) := by decide
theorem test_decode_settapthr : decode (0b0101#4 ++ 0b0#1 ++ 0b000#3 ++ 0b00110000#8) = .command (.settapthr 0x30#8) := by decide
theorem test_decode_settapdur : decode (0b0110#4 ++ 0b0#1 ++ 0b000#3 ++ 0b00010000#8) = .command (.settapdur 0x10#8) := by decide
theorem test_decode_setinten : decode (0b0111#4 ++ 0b0#1 ++ 0b000#3 ++ 0b10000000#8) = .command (.setinten 0x80#8) := by decide
theorem test_decode_getintsrc : decode (0b1000#4 ++ 0b0#1 ++ 0b000#3 ++ 0b00000000#8) = .command .getintsrc := by decide

/-- Every selector of 30_encoding.md R72 names its register and its offset. -/
theorem test_rsel_offsets :
    (DevReg.ofRsel 0b000#3).offset = 0x2D#8 ∧ (DevReg.ofRsel 0b001#3).offset = 0x31#8 ∧
      (DevReg.ofRsel 0b010#3).offset = 0x1D#8 ∧ (DevReg.ofRsel 0b011#3).offset = 0x21#8 ∧
      (DevReg.ofRsel 0b100#3).offset = 0x2A#8 ∧ (DevReg.ofRsel 0b101#3).offset = 0x2E#8 ∧
      (DevReg.ofRsel 0b110#3).offset = 0x30#8 ∧ (DevReg.ofRsel 0b111#3).offset = 0x00#8 := by decide

/-- Words V-DECODE calls illegal, one per reason of 30_encoding.md R75. -/
theorem test_decode_illegal :
    decode 0x0FFF#16 = .illegal 0x0FFF#16 ∧ decode 0x17FF#16 = .illegal 0x17FF#16 ∧ decode 0x2001#16 = .illegal 0x2001#16 ∧
      decode 0x3100#16 = .illegal 0x3100#16 ∧ decode 0x4080#16 = .illegal 0x4080#16 ∧ decode 0x5830#16 = .illegal 0x5830#16 ∧
      decode 0x6210#16 = .illegal 0x6210#16 ∧ decode 0x7180#16 = .illegal 0x7180#16 ∧ decode 0x8600#16 = .illegal 0x8600#16 ∧
      decode 0xFFFF#16 = .illegal 0xFFFF#16 := by decide

theorem test_decodeTableWord : decodeTableWord 16 0x30FE = some (.setrange 0xFE#8) ∧ decodeTableWord 16 0x9000 = none := by
  decide

/-! ### One step on a small state -/

/-- The state a step goes on to (the reset state where it stops). -/
def after (o : Host.Outcome State Fault Refusal) : State :=
  match o with
  | .next s => s
  | .fault _ => State.reset
  | .refused _ => State.reset

/-- After INIT: BUSUP = 1 and the handshake in the history. -/
def ready : State := { State.reset with busup := true, history := [.startup] }

/-- A command in flight at micro-step k. -/
def inFlight (i : Instr) (k : Nat) : State := { ready with seq := .run i k }

/-- The next BusRead is answered by `r`. -/
def answering (r : List Byte) (s : State) : State := { s with env := { s.env with overrides := [some r] } }

/-- The reference device is on the bus. -/
def onDevice (d : Device) (s : State) : State := { s with env := { s.env with device := .reference d } }

/-- The host presents `w`. -/
def presenting (w : Word) (s : State) : State := { s with host := [.word w] }

/-- V-WRREG: 0x06AA appends W[30, AA] and responds (OK, 00). -/
theorem test_wrreg :
    (after (exec (.wrreg .intsrc 0xAA#8) (inFlight (.wrreg .intsrc 0xAA#8) 0))).history =
        [.startup, .write 0x53#7 [0x30#8, 0xAA#8]] ∧
      (after (exec (.wrreg .intsrc 0xAA#8) (inFlight (.wrreg .intsrc 0xAA#8) 0))).response = some (0b00#2, 0x00#8) := by decide

/-- V-RDREG rows 1 and 4: one byte is the response; two bytes give the sentinel and ERR. -/
theorem test_rdreg_one_byte :
    (after (exec (.rdreg .id) (answering [0xE5#8] (inFlight (.rdreg .id) 1)))).response = some (0b00#2, 0xE5#8) ∧
      (after (exec (.rdreg .id) (answering [0xE5#8] (inFlight (.rdreg .id) 1)))).err = false := by decide
theorem test_rdreg_two_bytes :
    (after (exec (.rdreg .fmt) (answering [0x12#8, 0x34#8] (inFlight (.rdreg .fmt) 1)))).response = some (0b00#2, 0x00#8) ∧
      (after (exec (.rdreg .fmt) (answering [0x12#8, 0x34#8] (inFlight (.rdreg .fmt) 1)))).err = true := by decide

/-- V-INIT: [E5] gives 01; [E5, E5] gives 00 and ERR = 1. -/
theorem test_init_identity :
    (after (exec .init (answering [0xE5#8] (inFlight .init 4)))).response = some (0b00#2, 0x01#8) ∧
      (after (exec .init (answering [0xE5#8, 0xE5#8] (inFlight .init 4)))).response = some (0b00#2, 0x00#8) ∧
      (after (exec .init (answering [0xE5#8, 0xE5#8] (inFlight .init 4)))).err = true := by decide
theorem test_init_power_write :
    (after (exec .init (inFlight .init 2))).history = [.startup, .write 0x53#7 [0x2D#8, 0x08#8]] := by decide

/-- S4: T = AC, code FE writes AE. -/
theorem test_setrange :
    (after (exec (.setrange 0xFE#8) { inFlight (.setrange 0xFE#8) 2 with t := 0xAC#8 })).history =
      [.startup, .write 0x53#7 [0x31#8, 0xAE#8]] := by decide

/-- V-SETTAPXYZ: T = FF with 1, 0, 1 writes FD; T = 08 with 1, 0, 0 writes 0C. -/
theorem test_settapxyz :
    (after (exec (.settapxyz true false true) { inFlight (.settapxyz true false true) 2 with t := 0xFF#8 })).history =
        [.startup, .write 0x53#7 [0x2A#8, 0xFD#8]] ∧
      (after (exec (.settapxyz true false false) { inFlight (.settapxyz true false false) 2 with t := 0x08#8 })).history =
        [.startup, .write 0x53#7 [0x2A#8, 0x0C#8]] := by decide

/-- V-SETTAPTHR, V-SETTAPDUR, V-SETINTEN: one write frame each. -/
theorem test_settapthr :
    (after (exec (.settapthr 0x30#8) (inFlight (.settapthr 0x30#8) 0))).history =
      [.startup, .write 0x53#7 [0x1D#8, 0x30#8]] := by decide
theorem test_settapdur :
    (after (exec (.settapdur 0x10#8) (inFlight (.settapdur 0x10#8) 0))).history =
      [.startup, .write 0x53#7 [0x21#8, 0x10#8]] := by decide
theorem test_setinten :
    (after (exec (.setinten 0x60#8) (inFlight (.setinten 0x60#8) 0))).history =
      [.startup, .write 0x53#7 [0x2E#8, 0x60#8]] := by decide

/-- V-SETINTEN: single-tap and double-tap are 0x60, activity and free-fall 0x14. -/
theorem test_packIntFlags :
    packIntFlags false true true false false false false false = 0x60#8 ∧
      packIntFlags false false false true false true false false = 0x14#8 := by decide

/-- V-GETINTSRC: [A5] is returned raw; an empty list gives 00 and ERR = 1. -/
theorem test_getintsrc :
    (after (exec .getintsrc (answering [0xA5#8] (inFlight .getintsrc 1)))).response = some (0b00#2, 0xA5#8) ∧
      (after (exec .getintsrc (answering [] (inFlight .getintsrc 1)))).response = some (0b00#2, 0x00#8) ∧
      (after (exec .getintsrc (answering [] (inFlight .getintsrc 1)))).err = true := by decide

/-- V-REFUSE: before INIT 0x1701 is ILLEGAL (illegal wins), 0x1700 is NOTREADY. -/
theorem test_refusals :
    (after (step (presenting 0x1701#16 State.reset))).response = some (0b01#2, 0x00#8) ∧
      (after (step (presenting 0x1700#16 State.reset))).response = some (0b10#2, 0x00#8) ∧
      (after (step (presenting 0x1700#16 State.reset))).history = [] := by decide

/-- INIT is accepted right after reset (V-INIT). -/
theorem test_init_accepted_at_reset : (after (step (State.reset.withFetchWord 16 0x2000))).seq = .run .init 0 := by decide

/-- P7: another master writes data-format = 08 between SETRANGE's read and write; the register ends 01. -/
theorem test_lost_update :
    (after (step { onDevice Device.standard (inFlight (.setrange 0x01#8) 2) with
        env := { device := .reference Device.standard, overrides := [], moves := [[.setRegister 0x31#8 0x08#8]], reads := 0 }
      })).env.device =
      .reference { regs := [(0, 0xE5#8), (0x31, 0x01#8)], ptr := 0x31#8, present := true, clearIntOnRead := false } := by decide

/-- The register space keeps its canonical form when 0 is written over an entry. -/
theorem test_write_zero_removes_entry : Memory.write [(0, 0xE5#8), (48, 0x40#8)] 48 0x00#8 = [(0, 0xE5#8)] := by decide

/-! ### Witnesses: states and operands that meet the hypotheses of the statements -/

/-- Two words on the port and BUSUP = 1. -/
def twoWords : State := { ready with host := [.word 0x0208#16, .word 0x1200#16] }

theorem witness_EncodeDecodeAgree : decode 0x30FE#16 = .command (.setrange 0xFE#8) := by decide

theorem witness_DecodeFollowsOpcodeRows :
    decode 0x30FE#16 = .command (.setrange 0xFE#8) ∧ rowMatches 0x30FE#16 (opcodeRows[3]!) = true ∧
      ∃ n : Fin 9, rowMatches 0x30FE#16 (opcodeRows[n.val]!) = true := by decide

theorem witness_IllegalWords : decode 0x9000#16 = .illegal 0x9000#16 := by decide

theorem witness_AssemblerWordsDecode : AsmLine.wellFormed (.settapxyz 1 1 1) = true := by decide

theorem witness_HardwareResetAtIdle :
    ({ ready with host := [.reset] } : State).seq = .idle ∧ ({ ready with host := [.reset] } : State).host = [.reset] ∧
      ({ ready with host := [.resetNow] } : State).host = [.resetNow] := by decide

theorem witness_ResetMidCommandIsRefused :
    ({ inFlight .init 4 with host := [.resetNow] } : State).seq = .run .init 4 ∧
      ({ inFlight .init 4 with host := [.resetNow] } : State).host = .resetNow :: [] ∧
      ({ inFlight .init 4 with host := [.reset] } : State).host = .reset :: [] := by decide

theorem witness_StepRunsPresentedWord :
    (presenting 0x9000#16 ready).seq = .idle ∧ (presenting 0x9000#16 ready).host = .word 0x9000#16 :: [] ∧
      decode 0x9000#16 = .illegal 0x9000#16 ∧ (presenting 0x2000#16 ready).host = .word 0x2000#16 :: [] ∧
      decode 0x2000#16 = .command .init := by decide

theorem witness_StepGoesOnWithCommand :
    (inFlight .getintsrc 1).seq = .run .getintsrc 1 ∧ (inFlight .getintsrc 1).host.head? ≠ some .resetNow ∧
      ready.seq = .idle ∧ ready.host = [] := by decide

theorem witness_RefusalsChangeOnlyTheResponse :
    (presenting 0x1701#16 State.reset).seq = .idle ∧ (presenting 0x1701#16 State.reset).host = .word 0x1701#16 :: [] ∧
      decode 0x1701#16 = .illegal 0x1701#16 ∧ (presenting 0x1700#16 State.reset).host = .word 0x1700#16 :: [] ∧
      decode 0x1700#16 = .command (.rdreg .id) ∧ Instr.rdreg .id ≠ .init ∧ (presenting 0x1700#16 State.reset).busup = false := by
  decide

theorem witness_AcceptanceStartsCommand :
    ready.seq = .idle ∧ ready.busup = true ∧ State.reset.seq = .idle ∧ State.reset.busup = false := by decide

theorem witness_NoSuchMicroStepFaults :
    (inFlight .init 5).seq = .run .init 5 ∧ Instr.stepCount .init ≤ 5 ∧ (inFlight (.wrreg .pwr 0#8) 1).seq = .run (.wrreg .pwr 0#8) 1 ∧
      (Instr.wrreg .pwr 0#8).stepCount ≤ 1 := by decide

/-- A step that goes on: micro-step 0 of INIT. -/
theorem witness_step_next : step (inFlight .init 0) = .next { inFlight .init 0 with err := false, seq := .run .init 1 } := rfl

/-- BusyPortTakesNothing, both outcomes: a middle and a last micro-step. -/
theorem witness_BusyPortTakesNothing :
    (inFlight .init 0).seq = .run .init 0 ∧ (∃ t, step (inFlight .init 0) = .next t) ∧
      (inFlight (.settapthr 0x30#8) 0).seq = .run (.settapthr 0x30#8) 0 ∧ ∃ t, step (inFlight (.settapthr 0x30#8) 0) = .next t :=
  ⟨rfl, ⟨_, rfl⟩, rfl, ⟨_, rfl⟩⟩

/-- ResponseLifecycle, OnePrimitivePerStep, BusupLifecycle: a step that goes on, at Idle, in flight, and in INIT step 1. -/
theorem witness_ResponseLifecycle : ∃ t, step (presenting 0x2000#16 ready) = .next t := ⟨_, rfl⟩
theorem witness_OnePrimitivePerStep :
    (∃ t, step (inFlight (.wrreg .pwr 0x08#8) 0) = .next t) ∧ ∃ t, step { ready with host := [.reset] } = .next t :=
  ⟨⟨_, rfl⟩, ⟨_, rfl⟩⟩
theorem witness_BusupLifecycle :
    ready.busup = true ∧ (∃ t, step ready = .next t) ∧ ({ inFlight .init 1 with busup := false } : State).seq = .run .init 1 ∧
      ∃ t, step { inFlight .init 1 with busup := false } = .next t ∧ t.busup = true :=
  ⟨rfl, ⟨_, rfl⟩, rfl, ⟨_, rfl, rfl⟩⟩

theorem witness_ReadTxnTwoMicroSteps :
    (answering [0x07#8] ready).env.answer (answering [0x07#8] ready).history 0x53#7 1 = [0x07#8] ∧
      (answering [] ready).env.answer (answering [] ready).history 0x53#7 1 = [] ∧ ([] : List Byte).length ≠ 1 ∧
      (answering [1#8, 2#8] ready).env.answer (answering [1#8, 2#8] ready).history 0x53#7 1 = [1#8, 2#8] ∧
      [1#8, 2#8].length ≠ 1 := by decide

theorem witness_WrregWritesOneRegister :
    (0x07FF#16 : Word).extractLsb' 12 4 = 0x0#4 ∧ ready.seq = .idle ∧
      (inFlight (.wrreg .id 0xFF#8) 0).seq = .run (.wrreg .id 0xFF#8) 0 := by decide

theorem witness_RdregReadsOneRegister :
    (0x1001#16 : Word).extractLsb' 12 4 = 0x1#4 ∧ ready.seq = .idle ∧ (inFlight (.rdreg .id) 0).seq = .run (.rdreg .id) 0 ∧
      (answering [] (inFlight (.rdreg .id) 1)).seq = .run (.rdreg .id) 1 ∧
      (answering [] (inFlight (.rdreg .id) 1)).env.answer (answering [] (inFlight (.rdreg .id) 1)).history 0x53#7 1 = [] := by
  decide

theorem witness_InitFiveMicroSteps :
    (0x2FFF#16 : Word).extractLsb' 12 4 = 0x2#4 ∧ State.reset.seq = .idle ∧ (inFlight .init 0).seq = .run .init 0 ∧
      (inFlight .init 1).seq = .run .init 1 ∧ (inFlight .init 2).seq = .run .init 2 ∧ (inFlight .init 3).seq = .run .init 3 ∧
      (answering [0xE5#8] (inFlight .init 4)).seq = .run .init 4 ∧
      (answering [0xE5#8] (inFlight .init 4)).env.answer (answering [0xE5#8] (inFlight .init 4)).history 0x53#7 1 =
        [0xE5#8] := by decide

theorem witness_SetrangeMergesLowTwoBits :
    (0x3FFF#16 : Word).extractLsb' 12 4 = 0x3#4 ∧ ready.seq = .idle ∧ (inFlight (.setrange 0xFF#8) 0).seq = .run (.setrange 0xFF#8) 0 ∧
      (answering [0xFF#8] (inFlight (.setrange 0xFF#8) 1)).seq = .run (.setrange 0xFF#8) 1 ∧
      (answering [0xFF#8] (inFlight (.setrange 0xFF#8) 1)).env.answer
        (answering [0xFF#8] (inFlight (.setrange 0xFF#8) 1)).history 0x53#7 1 = [0xFF#8] ∧
      (inFlight (.setrange 0xFF#8) 2).seq = .run (.setrange 0xFF#8) 2 ∧
      (0x03#8 : Byte) = ((inFlight (.setrange 0xFF#8) 2).t &&& 0xFC#8) ||| (0xFF#8 &&& 0x03#8) := by decide

theorem witness_SettapxyzMergesLowThreeBits :
    (0x4FFF#16 : Word).extractLsb' 12 4 = 0x4#4 ∧ ready.seq = .idle ∧
      (inFlight (.settapxyz true false true) 0).seq = .run (.settapxyz true false true) 0 ∧
      (answering [0xFF#8] (inFlight (.settapxyz true false true) 1)).seq = .run (.settapxyz true false true) 1 ∧
      (answering [0xFF#8] (inFlight (.settapxyz true false true) 1)).env.answer
        (answering [0xFF#8] (inFlight (.settapxyz true false true) 1)).history 0x53#7 1 = [0xFF#8] ∧
      ({ inFlight (.settapxyz true false true) 2 with t := 0xFF#8 } : State).seq = .run (.settapxyz true false true) 2 ∧
      (0xFD#8 : Byte).extractLsb' 3 5 =
        ({ inFlight (.settapxyz true false true) 2 with t := 0xFF#8 } : State).t.extractLsb' 3 5 ∧
      (0xFD#8 : Byte).getLsbD 2 = true ∧ (0xFD#8 : Byte).getLsbD 1 = false ∧ (0xFD#8 : Byte).getLsbD 0 = true := by decide

theorem witness_DirectSettersWriteWholeRegister :
    (0x5FFF#16 : Word).extractLsb' 12 4 = 0x5#4 ∧ (0x6000#16 : Word).extractLsb' 12 4 = 0x6#4 ∧
      (0x7000#16 : Word).extractLsb' 12 4 = 0x7#4 ∧ ready.seq = .idle ∧
      (inFlight (.settapthr 0xFF#8) 0).seq = .run (.settapthr 0xFF#8) 0 ∧
      (inFlight (.settapdur 0xFF#8) 0).seq = .run (.settapdur 0xFF#8) 0 ∧
      (inFlight (.setinten 0xFF#8) 0).seq = .run (.setinten 0xFF#8) 0 := by decide

theorem witness_GetintsrcReturnsRawByte :
    (0x8001#16 : Word).extractLsb' 12 4 = 0x8#4 ∧ ready.seq = .idle ∧ (inFlight .getintsrc 0).seq = .run .getintsrc 0 ∧
      (answering [0xFF#8] (inFlight .getintsrc 1)).seq = .run .getintsrc 1 ∧
      (answering [0xFF#8] (inFlight .getintsrc 1)).env.answer (answering [0xFF#8] (inFlight .getintsrc 1)).history 0x53#7 1 =
        [0xFF#8] := by decide

/-- AliasesHaveTheSameEffect: each pair, Idle with BUSUP = 1 and 0, a micro-step of each length. -/
theorem witness_AliasesHaveTheSameEffect :
    IsAlias (.settapthr 0xFF#8) (.wrreg .thr 0xFF#8) ∧ IsAlias (.settapdur 0xFF#8) (.wrreg .dur 0xFF#8) ∧
      IsAlias (.setinten 0xFF#8) (.wrreg .inten 0xFF#8) ∧ IsAlias .getintsrc (.rdreg .intsrc) ∧
      ready.seq = .idle ∧ ready.busup = true ∧ State.reset.seq = .idle ∧ State.reset.busup = false ∧
      1 < Instr.stepCount .getintsrc ∧ 0 < (Instr.settapthr 0xFF#8).stepCount ∧ ([] : List HostInput).head? ≠ some .resetNow :=
  ⟨.inl ⟨_, rfl, rfl⟩, .inr (.inl ⟨_, rfl, rfl⟩), .inr (.inr (.inl ⟨_, rfl, rfl⟩)), .inr (.inr (.inr ⟨rfl, rfl⟩)), by decide⟩

/-- CommandOutcomeTable and StepAndFrameCounts: a command other than INIT once BUSUP = 1, and INIT right after reset, each
with its next read answered. -/
theorem witness_CommandOutcomeTable :
    (answering [] (presenting (encode .getintsrc) ready)).seq = .idle ∧
      (answering [] (presenting (encode .getintsrc) ready)).host = .word (encode .getintsrc) :: [] ∧
      ([] : List HostInput).head? ≠ some .resetNow ∧ (answering [] (presenting (encode .getintsrc) ready)).busup = true ∧
      (answering [] (presenting (encode .getintsrc) ready)).env.overrides = some [] :: [] ∧ Instr.reads .getintsrc = true ∧
      (presenting (encode .init) State.reset).seq = .idle ∧
      (presenting (encode .init) State.reset).host = .word (encode .init) :: [] := by decide

theorem witness_StepAndFrameCounts :
    (presenting (encode (.setrange 0x03#8)) ready).seq = .idle ∧
      (presenting (encode (.setrange 0x03#8)) ready).host = .word (encode (.setrange 0x03#8)) :: [] ∧
      (presenting (encode (.setrange 0x03#8)) ready).busup = true ∧ 2 < (Instr.setrange 0x03#8).stepCount ∧
      (presenting 0x1700#16 State.reset).host = .word 0x1700#16 :: [] ∧ (presenting 0x1700#16 State.reset).busup = false ∧
      (∃ i, decode 0x1700#16 = .command i ∧ i ≠ .init) ∧ decode 0x9000#16 = .illegal 0x9000#16 :=
  ⟨by decide, by decide, by decide, by decide, by decide, by decide, ⟨.rdreg .id, by decide, by decide⟩, by decide⟩

theorem witness_FailedReadLosesPreservedBits :
    (∃ code, Instr.setrange 0xFF#8 = .setrange code ∧ (0x03#8 : Byte) = code &&& 0x03#8) ∧
      (∃ x y z, Instr.settapxyz true true false = .settapxyz x y z ∧ (0x06#8 : Byte) = tapMask x y z) ∧
      (answering [] (presenting (encode (.setrange 0xFF#8)) ready)).seq = .idle ∧
      (answering [] (presenting (encode (.setrange 0xFF#8)) ready)).host = .word (encode (.setrange 0xFF#8)) :: [] ∧
      (answering [] (presenting (encode (.setrange 0xFF#8)) ready)).busup = true ∧
      (answering [] (presenting (encode (.setrange 0xFF#8)) ready)).env.overrides = some [] :: [] ∧
      ([] : List Byte).length ≠ 1 :=
  ⟨⟨_, rfl, by decide⟩, ⟨_, _, _, rfl, by decide⟩, by decide, by decide, by decide, by decide, by decide⟩

/-- RoundTripOnHealthyBus: the two words of one register on the port, and the run on the reference device, whose history is
healthy. -/
theorem witness_RoundTripOnHealthyBus :
    twoWords.seq = .idle ∧ twoWords.busup = true ∧
      twoWords.host = .word (encode (.wrreg .thr 0x08#8)) :: .word (encode (.rdreg .thr)) :: [] ∧
      ∃ t, runSteps 5 (onDevice Device.standard twoWords) = .next t ∧
        t.history.drop (onDevice Device.standard twoWords).history.length =
          [wFrame 0x1D#8 0x08#8, oFrame 0x1D#8, rFrame [0x08#8]] ∧
        HealthyTrace Device.standard.view [wFrame 0x1D#8 0x08#8, oFrame 0x1D#8, rFrame [0x08#8]] :=
  ⟨by decide, by decide, by decide, _, rfl, by decide, trivial, trivial, fun _ _ => rfl, trivial⟩

theorem witness_SelectorTable :
    ((0b111#3, 0x00#8) : BitVec 3 × Byte) ∈ [(0b000#3, 0x2D#8), (0b001#3, 0x31#8), (0b010#3, 0x1D#8), (0b011#3, 0x21#8),
      (0b100#3, 0x2A#8), (0b101#3, 0x2E#8), (0b110#3, 0x30#8), (0b111#3, 0x00#8)] ∧
      (inFlight (.wrreg .id 0xFF#8) 0).seq = .run (.wrreg .id 0xFF#8) 0 := by decide

theorem witness_ProgramsRunToTheirEnd :
    twoWords.seq = .idle ∧ twoWords.host = [0x0208#16, 0x1200#16].map .word ∧ [0x0208#16, 0x1200#16] ≠ [] := by decide

/-- EveryStepKeepsInvariant and MachineNeverStops: a state with the invariant, from which a step goes on. -/
theorem witness_Invariant : State.Inv ready ∧ ∃ t, step ready = .next t := by
  refine ⟨?_, ⟨_, rfl⟩⟩
  constructor <;> simp [ready, State.reset, Environment.initial, BusDevice.canonical, BusEvent.Legal]

/-- OnlyThreeEventsWriteErr: a failed read changes ERR, and micro-step 0 of INIT does. -/
theorem witness_OnlyThreeEventsWriteErr :
    (∃ t, step (answering [] (inFlight .getintsrc 1)) = .next t ∧ t.err ≠ (inFlight .getintsrc 1).err) ∧
      ∃ t, step { inFlight .init 0 with err := true } = .next t ∧ t.err ≠ true :=
  ⟨⟨_, rfl, by decide⟩, ⟨_, rfl, by decide⟩⟩

/-- ErrorFlagIsSticky: a failed read, and a run of two steps of a command with ERR = 1, neither of which clears it. -/
theorem witness_ErrorFlagIsSticky :
    (∃ t, step (answering [] (inFlight .getintsrc 1)) = .next t ∧
      t.history = (answering [] (inFlight .getintsrc 1)).history ++ [.read 0x53#7 1 []]) ∧
    (∃ t, runSteps 1 { inFlight (.wrreg .pwr 0#8) 0 with err := true } = .next t) ∧
      ¬ nextClearsErr { inFlight (.wrreg .pwr 0#8) 0 with err := true } := by
  refine ⟨⟨_, rfl, by decide⟩, ⟨_, rfl⟩, ?_⟩
  rw [nextClearsErr, nextIsReset]
  decide

theorem witness_NothingDependsOnErr :
    agreeButErr (inFlight .init 4) { inFlight .init 4 with err := true } ∧ (inFlight .init 4).err ≠ true := by
  exact ⟨rfl, by decide⟩

theorem witness_TIsReadOnlyByMerge :
    agreeButT (inFlight .getintsrc 1) { inFlight .getintsrc 1 with t := 0xFF#8 } ∧ (inFlight .getintsrc 1).t ≠ 0xFF#8 := by
  refine ⟨⟨rfl, ?_⟩, by decide⟩
  rintro ⟨i, hi, _⟩
  simp [inFlight] at hi

theorem witness_EnvironmentSeenOnlyThroughReads :
    agreeButEnv (answering [0x01#8] (inFlight .getintsrc 1))
        (onDevice Device.standard (answering [0x01#8] (inFlight .getintsrc 1))) ∧
      (environmentMoves (answering [0x01#8] (inFlight .getintsrc 1))).env.answer [.startup] 0x53#7 1 =
        (environmentMoves (onDevice Device.standard (answering [0x01#8] (inFlight .getintsrc 1)))).env.answer [.startup] 0x53#7 1 :=
  ⟨rfl, rfl⟩

theorem witness_ThreeFrameShapesOnly :
    ∃ t e, step (inFlight (.wrreg .id 0x12#8) 0) = .next t ∧ t.history = (inFlight (.wrreg .id 0x12#8) 0).history ++ [e] :=
  ⟨_, _, rfl, rfl⟩

/-- MicroStepFrame: a read frame that changes T and takes an override, a store, an offset frame and a micro-step that is
neither, each of which goes on. -/
theorem witness_MicroStepFrame :
    ((answering [0x40#8] (inFlight .getintsrc 1)).seq = .run .getintsrc 1 ∧
      ∃ t, exec .getintsrc (answering [0x40#8] (inFlight .getintsrc 1)) = .next t ∧
        t.t ≠ (inFlight .getintsrc 1).t ∧ t.env.overrides ≠ (answering [0x40#8] (inFlight .getintsrc 1)).env.overrides) ∧
    ((∃ t, exec (.setrange 0xFF#8) (onDevice Device.standard (inFlight (.setrange 0xFF#8) 2)) = .next t) ∧
      storedRegister (.setrange 0xFF#8) 2 0x00#8 = some (0x31#8, 0x03#8)) ∧
    ((∃ t, exec .init (onDevice Device.standard (inFlight .init 3)) = .next t) ∧ selectedRegister .init 3 = some 0x00#8) ∧
    ((∃ t, exec .init (inFlight .init 1) = .next t) ∧ storedRegister .init 1 0x00#8 = none ∧ selectedRegister .init 1 = none) :=
  ⟨⟨rfl, _, rfl, by decide, by decide⟩, ⟨⟨_, rfl⟩, by decide⟩, ⟨⟨_, rfl⟩, by decide⟩, ⟨_, rfl⟩, by decide, by decide⟩

theorem witness_RegisterSpaceLaws : Memory.wf [(0, 0xE5#8)] ∧ (48 : Nat) ≠ 0 := by decide

/-- FramesTouchOneRegister: the reference device, a store and an offset frame at the first and the last offset. -/
theorem witness_FramesTouchOneRegister :
    (onDevice Device.standard (inFlight (.wrreg .id 0x12#8) 0)).env.device = .reference Device.standard ∧
      Device.standard.present = true ∧ Device.standard.regs.wf ∧
      (onDevice Device.standard (inFlight (.wrreg .id 0x12#8) 0)).seq = .run (.wrreg .id 0x12#8) 0 ∧
      storedRegister (.wrreg .id 0x12#8) 0 0x00#8 = some (0x00#8, 0x12#8) ∧
      (onDevice Device.standard (inFlight (.setrange 0xFF#8) 0)).seq = .run (.setrange 0xFF#8) 0 ∧
      selectedRegister (.setrange 0xFF#8) 0 = some 0x31#8 := by decide

/-- LostWriteIsInvisible: the absent device, a command that only writes, an offset frame, and two environments. -/
theorem witness_LostWriteIsInvisible :
    (onDevice { Device.standard with present := false } (inFlight (.settapthr 0x08#8) 0)).env.device =
        .reference { Device.standard with present := false } ∧
      (onDevice { Device.standard with present := false } (inFlight (.settapthr 0x08#8) 0)).seq = .run (.settapthr 0x08#8) 0 ∧
      (Instr.settapthr 0x08#8).reads = false ∧ (storedRegister (.settapthr 0x08#8) 0 0x00#8).isSome = true ∧
      3 < Instr.stepCount .init ∧ (selectedRegister .init 3).isSome = true ∧
      agreeButEnv (inFlight .init 3) (onDevice Device.standard (inFlight .init 3)) :=
  ⟨rfl, rfl, rfl, rfl, by decide, rfl, rfl⟩

theorem witness_ReferenceDeviceIsHealthy :
    (onDevice Device.standard twoWords).env.device = .reference Device.standard ∧ Device.standard.regs.wf ∧
      (onDevice Device.standard twoWords).env.IsHealthyFixture ∧ (∀ x ∈ twoWords.host, ∃ w, x = .word w) ∧
      ∃ t, runSteps 1 (onDevice Device.standard twoWords) = .next t := by
  refine ⟨rfl, by decide, ⟨⟨_, rfl, rfl, rfl⟩, rfl, rfl⟩, ?_, ⟨_, rfl⟩⟩
  intro x hx
  simp [twoWords] at hx
  rcases hx with rfl | rfl <;> exact ⟨_, rfl⟩

/-- The reference device with one planned move. -/
def moving (mv : EnvMove) (s : State) : State :=
  { s with env := { device := .reference Device.standard, overrides := [], moves := [[mv]], reads := 0 } }

theorem witness_LostUpdate :
    (moving (.setRegister 0x31#8 0x08#8) (inFlight (.setrange 0x01#8) 2)).seq = .run (.setrange 0x01#8) 2 ∧
      (moving (.setRegister 0x31#8 0x08#8) (inFlight (.setrange 0x01#8) 2)).host.head? ≠ some .resetNow ∧
      (moving (.setRegister 0x31#8 0x08#8) (inFlight (.setrange 0x01#8) 2)).env.moves = [.setRegister 0x31#8 0x08#8] :: [] := by
  decide

theorem witness_ReadBetweenFramesIsExposed :
    (moving (.selectRegister 0x00#8) (inFlight (.rdreg .pwr) 1)).seq = .run (.rdreg .pwr) 1 ∧
      (moving (.selectRegister 0x00#8) (inFlight (.rdreg .pwr) 1)).host.head? ≠ some .resetNow ∧
      (moving (.selectRegister 0x00#8) (inFlight (.rdreg .pwr) 1)).env.overrides = [] ∧
      (moving (.selectRegister 0x00#8) (inFlight (.rdreg .pwr) 1)).env.moves = [.selectRegister 0x00#8] :: [] := by decide

/-- DestructiveRead: interrupt-source holds 40, selected, clear-on-read. -/
def latched : Device := { regs := [(0, 0xE5#8), (48, 0x40#8)], ptr := 0x30#8, present := true, clearIntOnRead := true }

theorem witness_DestructiveRead :
    (onDevice latched (inFlight .getintsrc 1)).seq = .run .getintsrc 1 ∧
      (onDevice latched (inFlight (.rdreg .intsrc) 1)).seq = .run (.rdreg .intsrc) 1 ∧
      (onDevice latched (inFlight .getintsrc 1)).env.device = .reference latched ∧ latched.regs.wf ∧
      (onDevice latched (inFlight .getintsrc 1)).env.overrides = [] := by decide

end Sys2Proof.Tests
end

section
/-! PROOF. The opcode map (30_encoding.md R73): what the decoder answers said once in terms of the rows, and why no word
matches two of them. Settles O4. -/

namespace Sys2Proof

theorem rowMatches_iff (w : Word) (row : Word × Word) : rowMatches w row = true ↔ w &&& row.1 = row.2 := beq_iff_eq

/-- All the decoder can answer: the command of a row the word matches, or `illegal` for a word that matches no row. -/
theorem decode_cases (w : Word) :
    (∃ i, decode w = .command i ∧ rowMatches w (opcodeRows[i.op.toNat]!) = true) ∨
    (decode w = .illegal w ∧ ∀ n : Fin 9, rowMatches w (opcodeRows[n.val]!) = false) := by
  unfold decode
  split_ifs with h0 h1 h2 h3 h4 h5 h6 h7 h8
  · exact .inl ⟨_, rfl, (rowMatches_iff ..).mpr h0⟩
  · exact .inl ⟨_, rfl, (rowMatches_iff ..).mpr h1⟩
  · exact .inl ⟨_, rfl, by subst h2; decide⟩
  · exact .inl ⟨_, rfl, (rowMatches_iff ..).mpr h3⟩
  · exact .inl ⟨_, rfl, (rowMatches_iff ..).mpr h4⟩
  · exact .inl ⟨_, rfl, (rowMatches_iff ..).mpr h5⟩
  · exact .inl ⟨_, rfl, (rowMatches_iff ..).mpr h6⟩
  · exact .inl ⟨_, rfl, (rowMatches_iff ..).mpr h7⟩
  · exact .inl ⟨_, rfl, by subst h8; decide⟩
  · have hfull : w &&& 0xFFFF#16 = w := BitVec.and_allOnes
    refine .inr ⟨rfl, fun n => ?_⟩
    fin_cases n <;> simp [rowMatches, opcodeRows, *]

/-- Every mask covers the four bits of `op`, and row `n` asks for `n` there. -/
theorem opcodeRows_op_bits : ∀ n : Fin 9,
    (opcodeRows[n.val]!).1.extractLsb' 12 4 = BitVec.allOnes 4 ∧
      (opcodeRows[n.val]!).2.extractLsb' 12 4 = BitVec.ofNat 4 n.val := by decide

/-- A word that matches row `n` holds `n` in its field `op`: this is what makes the rows exclusive. -/
theorem op_bits_of_rowMatches {w : Word} {n : Fin 9} (h : rowMatches w (opcodeRows[n.val]!) = true) :
    w.extractLsb' 12 4 = BitVec.ofNat 4 n.val := by
  obtain ⟨hmask, hmatch⟩ := opcodeRows_op_bits n
  calc w.extractLsb' 12 4 = w.extractLsb' 12 4 &&& BitVec.allOnes 4 := BitVec.and_allOnes.symm
    _ = (w &&& (opcodeRows[n.val]!).1).extractLsb' 12 4 := by rw [BitVec.extractLsb'_and, hmask]
    _ = BitVec.ofNat 4 n.val := by rw [(rowMatches_iff ..).mp h, hmatch]

theorem rowMatches_unique {w : Word} {n m : Fin 9} (hn : rowMatches w (opcodeRows[n.val]!) = true)
    (hm : rowMatches w (opcodeRows[m.val]!) = true) : n = m := by
  have hop : BitVec.ofNat 4 n.val = BitVec.ofNat 4 m.val := by
    rw [← op_bits_of_rowMatches hn, op_bits_of_rowMatches hm]
  have hval : n.val % 16 = m.val % 16 := congrArg BitVec.toNat hop
  omega

theorem Instr.op_lt (i : Instr) : i.op.toNat < 9 := by cases i <;> simp [Instr.op]

/-- A command matches the row of its own operation code. -/
theorem rowMatches_op_of_decode {w : Word} {i : Instr} (h : decode w = .command i) :
    rowMatches w (opcodeRows[i.op.toNat]!) = true := by
  obtain ⟨j, hj, hrow⟩ | ⟨hill, _⟩ := decode_cases w
  · obtain rfl : i = j := by simpa [h] using hj
    exact hrow
  · simp [h] at hill

/-- A word that matches a row is a command. -/
theorem decode_of_rowMatches {w : Word} {n : Fin 9} (h : rowMatches w (opcodeRows[n.val]!) = true) :
    ∃ i, decode w = .command i := by
  obtain ⟨i, hi, _⟩ | ⟨_, hnone⟩ := decode_cases w
  · exact ⟨i, hi⟩
  · exact absurd h (Bool.eq_false_iff.mp (hnone n))

/-- Settles O4: a command matches its own row, and no other since a row fixes the field `op`. -/
theorem decodeFollowsOpcodeRows : Obligations.DecodeFollowsOpcodeRows := by
  refine ⟨fun w i hi n => ?_, fun _ _ _ => rowMatches_unique, fun _ ⟨_, hn⟩ => decode_of_rowMatches hn⟩
  have hown := rowMatches_op_of_decode hi
  by_cases hn : n.val = i.op.toNat
  · rw [hn, hown, decide_eq_true rfl]
  · have hother : rowMatches w (opcodeRows[n.val]!) ≠ true := fun hrow =>
      hn (congrArg Fin.val (rowMatches_unique (m := ⟨i.op.toNat, i.op_lt⟩) hrow hown))
    rw [Bool.eq_false_of_not_eq_true hother, decide_eq_false hn]

end Sys2Proof
end

section
/-! PROOF. What a step may add to the history (30_encoding.md R82). Settles O46. -/

namespace Sys2Proof.Machine

/-- `t`'s history is `s`'s with at most one event more, a legal one (30_encoding.md R82, 20_memory.md R59). -/
def HistoryGrows (s t : State) : Prop :=
  ∃ es, t.history = s.history ++ es ∧ es.length ≤ 1 ∧ ∀ e ∈ es, BusEvent.Legal e

theorem HistoryGrows.of_eq {s t : State} (h : t.history = s.history) : HistoryGrows s t :=
  ⟨[], by simp [h], by simp, by simp⟩

theorem historyGrows_environmentMoves {s t : State} : HistoryGrows (environmentMoves s) t ↔ HistoryGrows s t := Iff.rfl

theorem HistoryGrows.of_append {s t : State} {e : BusEvent} (h : t.history = s.history ++ [e]) (he : BusEvent.Legal e) :
    HistoryGrows s t :=
  ⟨[e], h, by simp, by simpa using he⟩

/-- The event a step appended to a growing history is a legal one. -/
theorem HistoryGrows.legal {s t : State} {e : BusEvent} (hg : HistoryGrows s t) (h : t.history = s.history ++ [e]) :
    BusEvent.Legal e := by
  obtain ⟨es, hes, _, hlegal⟩ := hg
  obtain rfl : [e] = es := List.append_cancel_left (h.symm.trans hes)
  exact hlegal e (List.mem_singleton_self e)

/-- Every store goes to one of the eight offsets (20_memory.md R41). -/
theorem storedRegister_offset {i : Instr} {k : Nat} {t off v : Byte} (h : storedRegister i k t = some (off, v)) :
    ∃ reg : DevReg, off = reg.offset := by
  cases i <;>
    simp only [storedRegister, reduceCtorEq, Option.ite_none_right_eq_some, Option.some.injEq, Prod.mk.injEq] at h <;>
    obtain ⟨-, rfl, -⟩ := h
  case wrreg reg v => exact ⟨reg, rfl⟩
  case init => exact ⟨.pwr, rfl⟩
  case setrange => exact ⟨.fmt, rfl⟩
  case settapxyz => exact ⟨.axes, rfl⟩
  case settapthr => exact ⟨.thr, rfl⟩
  case settapdur => exact ⟨.dur, rfl⟩
  case setinten => exact ⟨.inten, rfl⟩

/-- Every offset frame selects one of the eight offsets (20_memory.md R41). -/
theorem selectedRegister_offset {i : Instr} {k : Nat} {off : Byte} (h : selectedRegister i k = some off) :
    ∃ reg : DevReg, off = reg.offset := by
  cases i <;>
    simp only [selectedRegister, reduceCtorEq, Option.ite_none_right_eq_some, Option.some.injEq] at h <;>
    obtain ⟨-, rfl⟩ := h
  case rdreg reg => exact ⟨reg, rfl⟩
  case init => exact ⟨.id, rfl⟩
  case setrange => exact ⟨.fmt, rfl⟩
  case settapxyz => exact ⟨.axes, rfl⟩
  case getintsrc => exact ⟨.intsrc, rfl⟩

/-- A micro-step of a command, by what the spec's tables say of it: a store, an offset frame, or neither. -/
theorem perform_historyGrows {i : Instr} {k : Nat} {m : MicroStep} (hm : (microSteps i)[k]? = some m) (s : State) :
    HistoryGrows s (m.perform s) := by
  cases hst : storedRegister i k s.t with
  | some p =>
    obtain ⟨m', hm', hperf⟩ := microSteps_stored (off := p.1) (v := p.2) hst
    obtain rfl : m = m' := Option.some.inj (hm.symm.trans hm')
    obtain ⟨reg, hreg⟩ := storedRegister_offset (off := p.1) (v := p.2) hst
    rw [hperf s rfl, hreg]
    exact .of_append (writeTxn_history ..) (.inr (.inl ⟨reg, p.2, rfl⟩))
  | none =>
    cases hsel : selectedRegister i k with
    | some off =>
      obtain ⟨m', hm', hperf⟩ := microSteps_selected hsel
      obtain rfl : m = m' := Option.some.inj (hm.symm.trans hm')
      obtain ⟨reg, rfl⟩ := selectedRegister_offset hsel
      rw [hperf s]
      exact .of_append (readTxnOffset_history ..) (.inr (.inr (.inl ⟨reg, rfl⟩)))
    | none =>
      obtain ⟨-, -, rfl⟩ | ⟨-, -, rfl⟩ | rfl := microSteps_neither hm hst hsel
      · exact .of_eq rfl
      · exact .of_append (busStartup_history s) (.inl rfl)
      · exact .of_append (readTxnByte_history s) (.inr (.inr (.inr ⟨_, rfl⟩)))

theorem acceptCommand_history (i : Instr) (s : State) : (acceptCommand i s).history = s.history := by
  obtain ⟨-, -, h⟩ | ⟨-, h⟩ := acceptCommand_cases i s
  · rw [h, refuse_history, takeWord_history]
  · rw [h, takeWord_history]

theorem exec_historyGrows {i : Instr} {s t : State} (h : exec i s = .next t) : HistoryGrows s t := by
  rw [exec_eq_commandStep] at h
  obtain ⟨-, rfl⟩ | ⟨c, k, m, -, hm, ⟨-, rfl⟩ | ⟨-, rfl⟩⟩ := commandStep_cases h
  · exact .of_eq (acceptCommand_history i s)
  · exact perform_historyGrows hm s
  · exact perform_historyGrows hm s

/-- A step appends at most one event, a legal one, unless it is a reset, which empties the history. -/
theorem step_historyGrows {s t : State} (h : step s = .next t) :
    (nextIsReset s ∧ t.history = []) ∨ HistoryGrows s t := by
  obtain ⟨-, rfl⟩ | ⟨i, -, hexec⟩ | ⟨-, rfl⟩ | ⟨hreset, rfl⟩ := step_cases h
  · exact .inr (.of_eq rfl)
  · exact .inr (historyGrows_environmentMoves.mp (exec_historyGrows hexec))
  · exact .inr (.of_eq rfl)
  · exact .inl ⟨hreset, rfl⟩

/-- Settles O46: an appended event is legal by `step_historyGrows`; a reset appends none. -/
theorem threeFrameShapesOnly : Obligations.ThreeFrameShapesOnly := by
  intro s t hstep e he
  obtain ⟨-, hempty⟩ | hgrows := step_historyGrows hstep
  · simp [hempty] at he
  · exact hgrows.legal he

end Sys2Proof.Machine
end

section
/-! PROOF. The register selector (30_encoding.md R72): how the two commands that carry one decode, field by field, and the
frame each puts on the bus. Settles O55. -/

namespace Sys2Proof

/-- A mask on a word of format C16 acts on each field by itself (30_encoding.md R71). -/
theorem formatC16_and (op op' : BitVec 4) (z' : BitVec 1) (sel sel' : BitVec 3) (imm imm' : Byte) :
    formatC16 op sel imm &&& (op' ++ z' ++ sel' ++ imm') =
      (op &&& op') ++ (0#1 &&& z') ++ (sel &&& sel') ++ (imm &&& imm') := by
  rw [formatC16, ← BitVec.and_append, ← BitVec.and_append, ← BitVec.and_append]

@[simp] theorem imm8Field_formatC16 (op : BitVec 4) (sel : BitVec 3) (imm : Byte) :
    imm8Field (formatC16 op sel imm) = imm := BitVec.extractLsb'_append_eq_right

@[simp] theorem rselField_formatC16 (op : BitVec 4) (sel : BitVec 3) (imm : Byte) :
    rselField (formatC16 op sel imm) = sel := by
  rw [rselField, formatC16, BitVec.extractLsb'_append_eq_of_le (Nat.le_refl 8)]
  exact BitVec.extractLsb'_append_eq_right

/-- The word of WRREG, for every selector and value. -/
theorem decode_formatC16_wrreg (sel : BitVec 3) (v : Byte) :
    decode (formatC16 0x0#4 sel v) = .command (.wrreg (.ofRsel sel) v) := by
  have hrow : formatC16 0x0#4 sel v &&& 0xF800#16 = 0x0000#16 := by
    simpa using formatC16_and 0x0#4 0xF#4 1#1 sel 0#3 v 0x00#8
  rw [decode, if_pos hrow, rselField_formatC16, imm8Field_formatC16]

/-- The word of RDREG, for every selector. -/
theorem decode_formatC16_rdreg : ∀ sel : BitVec 3,
    decode (formatC16 0x1#4 sel 0x00#8) = .command (.rdreg (.ofRsel sel)) := by decide

/-- The table of 30_encoding.md R72: selector and offset. -/
def rselOffsets : List (BitVec 3 × Byte) :=
  [(0b000#3, 0x2D#8), (0b001#3, 0x31#8), (0b010#3, 0x1D#8), (0b011#3, 0x21#8), (0b100#3, 0x2A#8), (0b101#3, 0x2E#8),
    (0b110#3, 0x30#8), (0b111#3, 0x00#8)]

theorem offset_of_mem_rselOffsets {p : BitVec 3 × Byte} (h : p ∈ rselOffsets) :
    (DevReg.ofRsel p.1).offset = p.2 := by
  fin_cases h <;> rfl

theorem DevReg.ofRsel_rsel (reg : DevReg) : DevReg.ofRsel reg.rsel = reg := by cases reg <;> rfl

namespace Machine

/-- A command at one of its micro-steps goes on with the history that micro-step leaves. -/
theorem exec_history_of_microStep {s : State} {i : Instr} {k : Nat} {m : MicroStep} (h : s.seq = .run i k)
    (hm : (microSteps i)[k]? = some m) : ∃ t, exec i s = .next t ∧ t.history = (m.perform s).history := by
  rw [exec_eq_commandStep]
  by_cases hk : k + 1 = (microSteps i).length
  · exact ⟨_, commandStep_last h hm hk, rfl⟩
  · exact ⟨_, commandStep_mid h hm hk, rfl⟩

end Machine

open Machine

/-- Settles O55: the literals by evaluation, the two frames by the decoded selector's offset. -/
theorem selectorTable : Obligations.SelectorTable := by
  refine ⟨by decide, by decide, DevReg.ofRsel_rsel, fun sel off v hmem => ?_⟩
  obtain rfl : (DevReg.ofRsel sel).offset = off := offset_of_mem_rselOffsets hmem
  exact ⟨⟨_, decode_formatC16_wrreg sel v, fun _ hs => exec_history_of_microStep hs rfl⟩,
    ⟨_, decode_formatC16_rdreg sel, fun _ hs => exec_history_of_microStep hs rfl⟩⟩

end Sys2Proof
end

section
/-! PROOF. ERR and T along a run (40_bus_transaction_layer.md R106, 10_state.md R21): what a step does to what a read
transaction writes, said once, and what follows for a failed read and for ERR = 1. Settles O40. -/

namespace Sys2Proof.Machine

/-- `t` has what `s` has of the items a read frame writes: ERR, T and the history. -/
def ReadItemsKept (s t : State) : Prop := t.err = s.err ∧ t.t = s.t ∧ t.history = s.history

theorem readItemsKept_acceptCommand (i : Instr) (s : State) : ReadItemsKept s (acceptCommand i s) := by
  obtain ⟨-, -, h⟩ | ⟨-, h⟩ := acceptCommand_cases i s <;> rw [h] <;> exact ⟨rfl, rfl, rfl⟩

/-- A step of a command at its micro-step `k` that goes on leaves the read items that micro-step leaves. -/
theorem exec_run_readItems {i c : Instr} {k : Nat} {s t : State} (h : s.seq = .run c k) (hexec : exec i s = .next t) :
    ∃ m, (microSteps i)[k]? = some m ∧ ReadItemsKept (m.perform s) t := by
  rw [exec_eq_commandStep] at hexec
  obtain ⟨hidle, -⟩ | ⟨c', k', m, hrun, hm, hresult⟩ := commandStep_cases hexec
  · simp [h] at hidle
  · obtain ⟨-, rfl⟩ : c = c' ∧ k = k' := by simpa [h] using hrun
    refine ⟨m, hm, ?_⟩
    obtain ⟨-, rfl⟩ | ⟨-, rfl⟩ := hresult <;> exact ⟨rfl, rfl, rfl⟩

/-- A step at Idle that goes on is a reset, or keeps the read items. -/
theorem step_idle_readItems {s t : State} (h : s.seq = .idle) (hs : step s = .next t) :
    (nextIsReset s ∧ t.history = []) ∨ ReadItemsKept s t := by
  obtain ⟨-, rfl⟩ | ⟨i, -, hexec⟩ | ⟨-, rfl⟩ | ⟨hreset, rfl⟩ := step_cases hs
  · exact .inr ⟨rfl, rfl, rfl⟩
  · rw [exec_eq_commandStep, commandStep_idle (by simpa using h), Host.Outcome.next.injEq] at hexec
    subst hexec
    exact .inr (readItemsKept_acceptCommand i (environmentMoves s))
  · exact .inr ⟨rfl, rfl, rfl⟩
  · exact .inl ⟨hreset, rfl⟩

/-- All a step that goes on can do to the read items: a reset, nothing at Idle, a micro-step in flight. -/
theorem step_readItems {s t : State} (hs : step s = .next t) :
    (nextIsReset s ∧ t.history = []) ∨ ReadItemsKept s t ∨
      ∃ i k m, s.seq = .run i k ∧ (microSteps i)[k]? = some m ∧ ReadItemsKept (m.perform (environmentMoves s)) t := by
  cases h : s.seq with
  | idle => exact (step_idle_readItems h hs).imp_right .inl
  | run i k =>
    obtain ⟨m, hm, hkept⟩ := exec_run_readItems (s := environmentMoves s) h (step_run h hs)
    exact .inr (.inr ⟨i, k, m, rfl, hm, hkept⟩)

/-- A micro-step that appends a read frame is the read frame: T and ERR follow from the list in the history. -/
theorem perform_of_read_appended {m : MicroStep} {s : State} {a : BusAddr} {n : Nat} {r : List Byte}
    (h : (m.perform s).history = s.history ++ [.read a n r]) :
    (m.perform s).err = (s.err || r.length != 1) ∧ (m.perform s).t = byteOf r := by
  obtain ⟨-, ⟨-, hp⟩ | ⟨-, hp⟩ | ⟨_, hp⟩ | ⟨-, hp⟩⟩ := m.perform_cases s <;> rw [hp] at h ⊢
  · simp at h
  · simp at h
  · simp at h
  · obtain ⟨-, -, rfl⟩ : Config.devAddr = a ∧ Config.readLength = n ∧
        busReadAnswer Config.devAddr Config.readLength s = r := by simpa using h
    exact ⟨errAfterRead_eq .., readByte_eq_byteOf _⟩

/-- A step that appends a read frame writes ERR and T from its list (40_bus_transaction_layer.md R102). -/
theorem step_of_read_appended {s t : State} {a : BusAddr} {n : Nat} {r : List Byte} (hs : step s = .next t)
    (h : t.history = s.history ++ [.read a n r]) : t.err = (s.err || r.length != 1) ∧ t.t = byteOf r := by
  obtain ⟨-, hempty⟩ | ⟨-, -, hkept⟩ | ⟨i, k, m, -, -, herr, ht, hhist⟩ := step_readItems hs
  · simp [hempty] at h
  · simp [hkept] at h
  · rw [herr, ht]
    exact perform_of_read_appended (s := environmentMoves s) (hhist.symm.trans h)

theorem byteOf_of_length_ne_one {r : List Byte} (h : r.length ≠ 1) : byteOf r = 0x00#8 := if_neg h

/-- Only micro-step 0 of INIT clears ERR (41_device_session.md R120). -/
theorem eq_init_zero_of_clearErr {i : Instr} {k : Nat} (h : (microSteps i)[k]? = some .clearErr) : i = .init ∧ k = 0 := by
  cases i
  case init =>
    cases k with
    | zero => exact ⟨rfl, rfl⟩
    | succ k => exact absurd (List.mem_of_getElem? (l := initSteps.tail) h) (by decide)
  all_goals
    have hmem := List.mem_of_getElem? h
    simp [microSteps, readTxn, readModifyWrite] at hmem

/-- ERR = 1 stays through every micro-step but the one that clears it. -/
theorem perform_keeps_err {m : MicroStep} {s : State} (hm : m ≠ .clearErr) (h : s.err = true) :
    (m.perform s).err = true := by
  cases m with
  | clearErr => exact absurd rfl hm
  | readFrame => simp [MicroStep.perform, errAfterRead, h]
  | startBus | write | offsetFrame | writeMerged => exact h

/-- ERR = 1 stays through every step but a reset and micro-step 0 of INIT. -/
theorem step_keeps_err {s t : State} (hs : step s = .next t) (h : s.err = true) (hclear : ¬ nextClearsErr s) :
    t.err = true := by
  obtain ⟨hreset, -⟩ | ⟨herr, -, -⟩ | ⟨i, k, m, hrun, hm, herr, -, -⟩ := step_readItems hs
  · exact absurd (.inl hreset) hclear
  · rw [herr, h]
  · rw [herr]
    refine perform_keeps_err (fun hm0 => hclear (.inr ?_)) h
    obtain ⟨rfl, rfl⟩ := eq_init_zero_of_clearErr (hm0 ▸ hm)
    exact hrun

theorem runSteps_keeps_err {n : Nat} {s t : State} (h : s.err = true) (hrun : runSteps n s = .next t)
    (hclear : ∀ m u, m < n → runSteps m s = .next u → ¬ nextClearsErr u) : t.err = true := by
  induction n generalizing s with
  | zero =>
    rw [runSteps_zero, Host.Outcome.next.injEq] at hrun
    rwa [← hrun]
  | succ n ih =>
    obtain ⟨u, hs, hu⟩ := runSteps_succ_cases hrun
    have herr : u.err = true := step_keeps_err hs h (hclear 0 s n.succ_pos (runSteps_zero s))
    exact ih herr hu fun m v hm hv => hclear (m + 1) v (Nat.succ_lt_succ hm) (by rw [runSteps_next hs, hv])

/-- Settles O40: the step of a failed read by its list in the history, the rest by induction on the steps. -/
theorem errorFlagIsSticky : Obligations.ErrorFlagIsSticky := by
  refine ⟨fun s t r hs hr hhist => ?_, fun _ _ _ => runSteps_keeps_err⟩
  obtain ⟨herr, ht⟩ := step_of_read_appended hs hhist
  exact ⟨by simp [herr, hr], by rw [ht, byteOf_of_length_ne_one hr]⟩

end Sys2Proof.Machine
end

section
/-! PROOF. The read transaction (40_bus_transaction_layer.md R102). Settles O21. -/

namespace Sys2Proof.Machine

/-- ReadTxn step b, for the list `r` the environment returns. -/
theorem readTxnByte_eq {s : State} {r : List Byte} (h : s.env.answer s.history 0x53#7 1 = r) :
    readTxnByte s = { s with
      history := s.history ++ [.read 0x53#7 1 r], env := s.env.afterRead 0x53#7 1, t := byteOf r,
      err := (s.err || r.length != 1) } := by
  rw [← h, ← readByte_eq_byteOf, ← errAfterRead_eq]
  rfl

/-- Settles O21: step b by the byte and the flag of the list read. -/
theorem readTxnTwoMicroSteps : Obligations.ReadTxnTwoMicroSteps := by
  refine ⟨fun _ _ => rfl, fun s b h => ?_, fun s r h hr => ?_, fun _ => rfl⟩
  · rw [readTxnByte_eq h]
    simp [byteOf]
  · rw [readTxnByte_eq h, byteOf_of_length_ne_one hr]
    simp [hr]

end Sys2Proof.Machine
end

section
/-! PROOF. WRREG and RDREG (40_bus_transaction_layer.md R103, R104): the words of each by the row of its operation code
(30_encoding.md R73), the acceptance every command but INIT shares (R100), the micro-steps. Settles O22 and O23. -/

namespace Sys2Proof

/-! ### Words -/

/-- A word with the reserved bit clear is of format C16 in its own fields (30_encoding.md R71). -/
theorem formatC16_of_fields {w : Word} (hz : w.getLsbD 11 = false) :
    formatC16 (w.extractLsb' 12 4) (rselField w) (imm8Field w) = w := by
  have hbit : 0#1 = w.extractLsb' 11 1 := by
    ext k hk
    obtain rfl : k = 0 := by omega
    rw [BitVec.getElem_extractLsb', hz, BitVec.getElem_zero]
  have hjoin (lo a b : Nat) : w.extractLsb' (lo + a) b ++ w.extractLsb' lo a = w.extractLsb' lo (b + a) :=
    BitVec.extractLsb'_append_extractLsb'_eq_extractLsb' rfl
  calc formatC16 (w.extractLsb' 12 4) (rselField w) (imm8Field w)
      = w.extractLsb' 12 4 ++ w.extractLsb' 11 1 ++ w.extractLsb' 8 3 ++ w.extractLsb' 0 8 := by rw [formatC16, hbit]; rfl
    _ = w.extractLsb' 0 16 := by rw [hjoin 11 1 4, hjoin 8 3 5, hjoin 0 8 8]
    _ = w := BitVec.extractLsb'_eq_self

/-- Every mask covers the reserved bit, and every row asks for 0 there. -/
theorem opcodeRows_reserved_bit : ∀ n : Fin 9,
    (opcodeRows[n.val]!).1.getLsbD 11 = true ∧ (opcodeRows[n.val]!).2.getLsbD 11 = false := by decide

theorem reserved_clear_of_rowMatches {w : Word} {n : Fin 9} (h : rowMatches w (opcodeRows[n.val]!) = true) :
    w.getLsbD 11 = false := by
  obtain ⟨hmask, hmatch⟩ := opcodeRows_reserved_bit n
  calc w.getLsbD 11 = (w &&& (opcodeRows[n.val]!).1).getLsbD 11 := by rw [BitVec.getLsbD_and, hmask, Bool.and_true]
    _ = false := by rw [(rowMatches_iff ..).mp h, hmatch]

/-- A word that does not match the row of its own operation code is illegal. -/
theorem decode_illegal_of_not_rowMatches {w : Word} {n : Fin 9} (hop : w.extractLsb' 12 4 = BitVec.ofNat 4 n.val)
    (h : rowMatches w (opcodeRows[n.val]!) ≠ true) : decode w = .illegal w := by
  obtain ⟨i, -, hrow⟩ | ⟨hillegal, -⟩ := decode_cases w
  · have hi : BitVec.ofNat 4 i.op.toNat = BitVec.ofNat 4 n.val := by
      rw [← hop, op_bits_of_rowMatches (n := ⟨i.op.toNat, i.op_lt⟩) hrow]
    have hval : i.op.toNat % 16 = n.val % 16 := congrArg BitVec.toNat hi
    have hn : i.op.toNat = n.val := by
      have := i.op_lt
      omega
    exact absurd (hn ▸ hrow) h
  · exact hillegal

/-- The words with operation code 0 (30_encoding.md R75). -/
theorem decode_op_wrreg {w : Word} (hop : w.extractLsb' 12 4 = 0x0#4) :
    decode w = if w.getLsbD 11 = false then .command (.wrreg (.ofRsel (rselField w)) (imm8Field w)) else .illegal w := by
  split_ifs with hz
  · rw [← decode_formatC16_wrreg, ← hop, formatC16_of_fields hz]
  · exact decode_illegal_of_not_rowMatches (n := 0) hop fun h => hz (reserved_clear_of_rowMatches h)

/-- Row 1 asks for an immediate of 0 (30_encoding.md R73). -/
theorem imm8_zero_of_rowMatches_rdreg {w : Word} (h : rowMatches w (opcodeRows[(1 : Fin 9).val]!) = true) :
    imm8Field w = 0#8 := by
  have hrow : w &&& 0xF8FF#16 = 0x1000#16 := (rowMatches_iff ..).mp h
  calc imm8Field w = imm8Field w &&& BitVec.allOnes 8 := BitVec.and_allOnes.symm
    _ = imm8Field (w &&& 0xF8FF#16) := by rw [imm8Field, imm8Field, BitVec.extractLsb'_and]; rfl
    _ = 0#8 := by rw [hrow]; rfl

/-- The words with operation code 1 (30_encoding.md R75). -/
theorem decode_op_rdreg {w : Word} (hop : w.extractLsb' 12 4 = 0x1#4) :
    decode w = if w.getLsbD 11 = false ∧ imm8Field w = 0#8 then .command (.rdreg (.ofRsel (rselField w)))
      else .illegal w := by
  split_ifs with h
  · obtain ⟨hz, himm⟩ := h
    rw [← decode_formatC16_rdreg, ← hop, ← himm, formatC16_of_fields hz]
  · exact decode_illegal_of_not_rowMatches (n := 1) hop fun hrow =>
      h ⟨reserved_clear_of_rowMatches hrow, imm8_zero_of_rowMatches_rdreg hrow⟩

namespace Machine

/-! ### Acceptance and micro-steps -/

/-- The acceptance of every command but INIT (40_bus_transaction_layer.md R100). -/
theorem exec_idle {i : Instr} {s : State} (hi : i ≠ .init) (h : s.seq = .idle) :
    exec i s = .next (acceptedOrNotReady i s) := by
  rw [exec_eq_commandStep, commandStep_idle h, acceptedOrNotReady]
  obtain ⟨-, hup, hacc⟩ | ⟨hup, hacc⟩ := acceptCommand_cases i s
  · have hseq : refusedWith 0b10#2 s = { refusedWith 0b10#2 s with seq := .idle } := by rw [← h]; rfl
    rw [hacc, hup, hseq]
    rfl
  · rw [hacc, if_pos (hup.resolve_left hi)]
    rfl

/-- The one micro-step of WRREG (40_bus_transaction_layer.md R103). -/
theorem exec_wrreg_run {reg : DevReg} {v : Byte} {s : State} (h : s.seq = .run (.wrreg reg v) 0) :
    exec (.wrreg reg v) s = .next { s with
      history := s.history ++ [.write 0x53#7 [reg.offset, v]], env := s.env.onWrite 0x53#7 [reg.offset, v],
      resp := { valid := true, kind := 0b00#2, data := 0x00#8 }, responses := s.responses ++ [(0b00#2, 0x00#8)],
      seq := .idle } := by
  rw [exec_eq_commandStep, commandStep_last h rfl rfl]
  rfl

/-- Micro-step 0 of RDREG (40_bus_transaction_layer.md R104). -/
theorem exec_rdreg_run_zero {reg : DevReg} {s : State} (h : s.seq = .run (.rdreg reg) 0) :
    exec (.rdreg reg) s = .next { s with
      history := s.history ++ [.write 0x53#7 [reg.offset]], env := s.env.onWrite 0x53#7 [reg.offset],
      seq := .run (.rdreg reg) 1 } := by
  rw [exec_eq_commandStep, commandStep_mid h rfl (by simp [length_microSteps, Instr.stepCount])]
  rfl

/-- Micro-step 1 of RDREG (40_bus_transaction_layer.md R104), for the list `r` the environment returns. -/
theorem exec_rdreg_run_one {reg : DevReg} {s : State} {r : List Byte} (h : s.seq = .run (.rdreg reg) 1)
    (hr : s.env.answer s.history 0x53#7 1 = r) :
    exec (.rdreg reg) s = .next { s with
      history := s.history ++ [.read 0x53#7 1 r], env := s.env.afterRead 0x53#7 1,
      t := byteOf r, err := (s.err || r.length != 1),
      resp := { valid := true, kind := 0b00#2, data := byteOf r }, responses := s.responses ++ [(0b00#2, byteOf r)],
      seq := .idle } := by
  rw [exec_eq_commandStep, commandStep_last h rfl rfl, MicroStep.perform, readTxnByte_eq hr]
  rfl

end Machine

open Machine

/-- Settles O22: the words by the row of their operation code, the rest by the cases of SEQ. -/
theorem wrregWritesOneRegister : Obligations.WrregWritesOneRegister :=
  ⟨fun _ => decode_op_wrreg, fun _ _ _ => exec_idle (by simp), fun _ _ _ => exec_wrreg_run⟩

/-- Settles O23: likewise, with both micro-steps of the read transaction. -/
theorem rdregReadsOneRegister : Obligations.RdregReadsOneRegister :=
  ⟨fun _ => decode_op_rdreg, fun _ _ => exec_idle (by simp), fun _ _ => exec_rdreg_run_zero,
    fun _ _ _ => exec_rdreg_run_one⟩

end Sys2Proof
end

section
/-! PROOF. The round-trip law (40_bus_transaction_layer.md R105): WRREG and RDREG each run from the word on the port to the
response, and what a healthy bus (20_memory.md R62) says of the frames of the two together. Settles O35. -/

namespace Sys2Proof.Machine

theorem decode_encode_wrreg (reg : DevReg) (v : Byte) : decode (encode (.wrreg reg v)) = .command (.wrreg reg v) :=
  (decode_formatC16_wrreg reg.rsel v).trans (by rw [DevReg.ofRsel_rsel])

theorem decode_encode_rdreg (reg : DevReg) : decode (encode (.rdreg reg)) = .command (.rdreg reg) :=
  (decode_formatC16_rdreg reg.rsel).trans (by rw [DevReg.ofRsel_rsel])

/-- A command in flight goes on as its meaning says, unless reset is asserted at once. -/
theorem step_of_exec_run {s t : State} {i : Instr} {k : Nat} (h : s.seq = .run i k) (hr : s.host.head? ≠ some .resetNow)
    (hexec : exec i (environmentMoves s) = .next t) : step s = .next t := by
  rw [step, controllerStep, nextAction_run (s := environmentMoves s) h hr]
  exact hexec

/-- The command on the port of an idle controller whose bus is up is accepted. -/
theorem step_accepts {s : State} {w : Word} {rest : List HostInput} {i : Instr} (hi : i ≠ .init) (h : s.seq = .idle)
    (hup : s.busup = true) (hhost : s.host = .word w :: rest) (hd : decode w = .command i) :
    step s = .next (accepted i (environmentMoves s)) := by
  have hact : nextAction (environmentMoves s) = .command i := by
    rw [nextAction_word (s := environmentMoves s) h hhost, hd]
  have hacc : acceptedOrNotReady i (environmentMoves s) = accepted i (environmentMoves s) := if_pos hup
  rw [step, controllerStep, hact, ← hacc]
  exact exec_idle hi h

/-- WRREG from its word to its response: one frame, ERR kept (40_bus_transaction_layer.md R103). -/
theorem runSteps_wrreg {reg : DevReg} {v : Byte} {s : State} {rest : List HostInput} (h : s.seq = .idle)
    (hup : s.busup = true) (hhost : s.host = .word (encode (.wrreg reg v)) :: rest)
    (hr : rest.head? ≠ some .resetNow) :
    ∃ t, runSteps 2 s = .next t ∧ t.seq = .idle ∧ t.busup = true ∧ t.host = rest ∧ t.err = s.err ∧
      t.history = s.history ++ [wFrame reg.offset v] := by
  have hacc := step_accepts (by simp) h hup hhost (decode_encode_wrreg reg v)
  have hrest : (accepted (.wrreg reg v) (environmentMoves s)).host = rest := congrArg List.tail hhost
  have hwrite := step_of_exec_run (k := 0) rfl (hrest ▸ hr) (exec_wrreg_run rfl)
  exact ⟨_, (runSteps_next hacc).trans (runSteps_next hwrite), rfl, hup, hrest, rfl, rfl⟩

/-- RDREG from its word to its response, `r` being the list its read returned (40_bus_transaction_layer.md R104). -/
theorem runSteps_rdreg {reg : DevReg} {s : State} {rest : List HostInput} (h : s.seq = .idle) (hup : s.busup = true)
    (hhost : s.host = .word (encode (.rdreg reg)) :: rest) (hr : rest.head? ≠ some .resetNow) :
    ∃ r t, runSteps 3 s = .next t ∧ t.history = s.history ++ [oFrame reg.offset, rFrame r] ∧
      t.err = (s.err || r.length != 1) ∧ t.resp = { valid := true, kind := 0b00#2, data := byteOf r } := by
  have hacc := step_accepts (by simp) h hup hhost (decode_encode_rdreg reg)
  have hrest : (accepted (.rdreg reg) (environmentMoves s)).host = rest := congrArg List.tail hhost
  have hoffset := step_of_exec_run (k := 0) rfl (hrest ▸ hr) (exec_rdreg_run_zero rfl)
  rw [runSteps_next hacc, runSteps_next hoffset]
  exact ⟨_, _, runSteps_next (step_of_exec_run (k := 1) rfl (hrest ▸ hr) (exec_rdreg_run_one rfl rfl)),
    List.append_assoc .., rfl, rfl⟩

/-- On a healthy bus a register just written and then selected answers with the value written (20_memory.md R62). -/
theorem answer_of_healthyTrace {view : DeviceView} {off v : Byte} {r : List Byte}
    (h : HealthyTrace view [wFrame off v, oFrame off, rFrame r]) : r = [v] := by
  obtain ⟨-, -, hread, -⟩ := h
  exact (hread rfl rfl).trans (by simp [DeviceView.after, Config.devAddr, wFrame, oFrame])

/-- Settles O35: the two commands one after the other; their three frames, healthy, leave the read no other answer. -/
theorem roundTripOnHealthyBus : Obligations.RoundTripOnHealthyBus := by
  intro reg v s rest view h hup hhost hr
  obtain ⟨u, hwrite, hidle, huup, huhost, huerr, huhist⟩ := runSteps_wrreg h hup hhost (by simp)
  obtain ⟨r, t, hread, hhist, herr, hresp⟩ := runSteps_rdreg hidle huup huhost hr
  refine ⟨t, (runSteps_add hwrite).trans hread, fun hhealthy => ?_⟩
  have hframes : t.history.drop s.history.length = [wFrame reg.offset v, oFrame reg.offset, rFrame r] := by
    simp [hhist, huhist]
  obtain rfl : r = [v] := answer_of_healthyTrace (hframes ▸ hhealthy)
  exact ⟨hresp, by simpa [huerr] using herr⟩

end Sys2Proof.Machine
end

section
/-! PROOF. The words of the Device Session commands (41_device_session.md R120 to R126): a word holding the operation code of
a row is the command of that row, or it is illegal; which of the two, said field by field. -/

namespace Sys2Proof

/-- The command of row `n` of 30_encoding.md R73, its operands read from the fields of `w` (R74). -/
def rowCommand (w : Word) : Fin 9 → Instr
  | 0 => .wrreg (.ofRsel (rselField w)) (imm8Field w)
  | 1 => .rdreg (.ofRsel (rselField w))
  | 2 => .init
  | 3 => .setrange (imm8Field w)
  | 4 => .settapxyz (w.getLsbD 2) (w.getLsbD 1) (w.getLsbD 0)
  | 5 => .settapthr (imm8Field w)
  | 6 => .settapdur (imm8Field w)
  | 7 => .setinten (imm8Field w)
  | 8 => .getintsrc

/-- The decoder's test for a row decides for that row's command, since no word matches two rows. -/
theorem decode_eq_rowCommand {w : Word} {n : Fin 9} (h : rowMatches w (opcodeRows[n.val]!) = true) :
    decode w = .command (rowCommand w n) := by
  have hrow (m : Fin 9) (hm : w &&& (opcodeRows[m.val]!).1 = (opcodeRows[m.val]!).2) :
      Decoded.command (rowCommand w m) = .command (rowCommand w n) := by
    rw [rowMatches_unique h ((rowMatches_iff ..).mpr hm)]
  obtain ⟨i, hi⟩ := decode_of_rowMatches h
  unfold decode at hi ⊢
  split_ifs at hi ⊢ with h0 h1 h2 h3 h4 h5 h6 h7 h8
  · exact hrow 0 h0
  · exact hrow 1 h1
  · exact hrow 2 (by subst h2; rfl)
  · exact hrow 3 h3
  · exact hrow 4 h4
  · exact hrow 5 h5
  · exact hrow 6 h6
  · exact hrow 7 h7
  · exact hrow 8 (by subst h8; rfl)

/-- A word holding the operation code of row `n` is that row's command when it matches the row, else illegal. -/
theorem decode_op {w : Word} {n : Fin 9} {P : Prop} [Decidable P] (hop : w.extractLsb' 12 4 = BitVec.ofNat 4 n.val)
    (hP : w &&& (opcodeRows[n.val]!).1 = (opcodeRows[n.val]!).2 ↔ P) :
    decode w = if P then .command (rowCommand w n) else .illegal w := by
  have hrow := (rowMatches_iff w (opcodeRows[n.val]!)).trans hP
  split_ifs with h
  · exact decode_eq_rowCommand (hrow.mpr h)
  · exact decode_illegal_of_not_rowMatches hop (mt hrow.mp h)

/-- The middle one of three fields. -/
theorem extractLsb'_middle {hi mid lo : Nat} (a : BitVec hi) (b : BitVec mid) (c : BitVec lo) :
    (a ++ b ++ c).extractLsb' lo mid = b := by
  rw [BitVec.extractLsb'_append_eq_of_le le_rfl, Nat.sub_self]
  exact BitVec.extractLsb'_append_eq_right

/-- A row whose mask covers all bits but the low `lo` and which asks for zeros below the operation code: the word matches it
exactly when the `mid` bits between the operation code and the low ones are 0. -/
theorem and_mask_eq_iff {mid lo : Nat} {w : BitVec (4 + mid + lo)} {op : BitVec 4}
    (hop : w.extractLsb' (lo + mid) 4 = op) :
    w &&& (BitVec.allOnes 4 ++ BitVec.allOnes mid ++ 0#lo) = op ++ 0#mid ++ 0#lo ↔ w.extractLsb' lo mid = 0#mid := by
  have hw : op ++ w.extractLsb' lo mid ++ w.extractLsb' 0 lo = w := by
    rw [← hop, BitVec.extractLsb'_append_extractLsb'_eq_extractLsb' rfl, BitVec.extractLsb'_append_extractLsb']
  have hand : w &&& (BitVec.allOnes 4 ++ BitVec.allOnes mid ++ 0#lo) = op ++ w.extractLsb' lo mid ++ 0#lo := by
    conv_lhs => rw [← hw]
    simp only [BitVec.and_append, BitVec.and_allOnes, BitVec.and_zero]
  rw [hand]
  refine ⟨fun h => ?_, fun h => by rw [h]⟩
  rw [← extractLsb'_middle op (w.extractLsb' lo mid) 0#lo, h, extractLsb'_middle]

/-- The bits between the operation code and the immediate: the reserved bit and the selector (30_encoding.md R71). -/
theorem reserved_rsel_clear_iff (w : Word) : w.extractLsb' 8 4 = 0#4 ↔ w.getLsbD 11 = false ∧ rselField w = 0#3 := by
  constructor
  · intro h
    have hbit (k : Nat) (hk : k < 4) : w.getLsbD (8 + k) = false := by
      simpa [hk] using congrArg (BitVec.getLsbD · k) h
    refine ⟨hbit 3 (by decide), ?_⟩
    ext k hk
    simpa [rselField] using hbit k (by omega)
  · rintro ⟨hz, hsel⟩
    ext k hk
    obtain rfl | hlt : k = 3 ∨ k < 3 := by omega
    · simpa using hz
    · simpa [rselField, hlt] using congrArg (BitVec.getLsbD · k) hsel

/-- A row whose mask is full is matched by its one word. -/
theorem and_fullMask_iff (w v : Word) : w &&& 0xFFFF#16 = v ↔ w = v := by
  rw [show w &&& 0xFFFF#16 = w from BitVec.and_allOnes]

end Sys2Proof
end

section
/-! PROOF. The steps of the Device Session commands (41_device_session.md R120 to R126): INIT's acceptance, one rule per kind
of micro-step, and the byte a read-modify-write writes back. -/

namespace Sys2Proof.Machine

/-! ### Acceptance -/

/-- INIT is accepted whatever BUSUP (40_bus_transaction_layer.md R100). -/
theorem exec_init_idle {s : State} (h : s.seq = .idle) : exec .init s = .next (accepted .init s) := by
  rw [exec_eq_commandStep, commandStep_idle h]
  obtain ⟨hi, -, -⟩ | ⟨-, hacc⟩ := acceptCommand_cases .init s
  · exact absurd rfl hi
  · rw [hacc]
    rfl

/-! ### One micro-step of a command -/

section
variable {i : Instr} {k : Nat} {m : MicroStep} {off v : Byte} {r : List Byte} {s : State}

/-- A micro-step of a command that is not its last, counted by the spec's table (70_reset_and_hazards.md R193). -/
theorem exec_mid (h : s.seq = .run i k) (hm : (microSteps i)[k]? = some m) (hk : k + 1 ≠ i.stepCount) :
    exec i s = .next { m.perform s with seq := .run i (k + 1) } := by
  rw [exec_eq_commandStep, commandStep_mid h hm (by rwa [length_microSteps])]

/-- The last micro-step of a command, counted likewise. -/
theorem exec_last (h : s.seq = .run i k) (hm : (microSteps i)[k]? = some m) (hk : k + 1 = i.stepCount) :
    exec i s = .next (respond .ok (resultOf i (m.perform s).t) (m.perform s)) := by
  rw [exec_eq_commandStep, commandStep_last h hm (by rwa [length_microSteps])]

/-- A write transaction that ends a command without response data (40_bus_transaction_layer.md R101). -/
theorem exec_write_last (h : s.seq = .run i k) (hm : (microSteps i)[k]? = some m) (hp : m.perform s = writeTxn off v s)
    (hk : k + 1 = i.stepCount) (hres : resultOf i = noData) :
    exec i s = .next { s with
      history := s.history ++ [.write 0x53#7 [off, v]], env := s.env.onWrite 0x53#7 [off, v],
      resp := { valid := true, kind := 0b00#2, data := 0x00#8 }, responses := s.responses ++ [(0b00#2, 0x00#8)],
      seq := .idle } := by
  rw [exec_last h hm hk, hp, hres]
  rfl

/-- The offset frame of a read transaction (40_bus_transaction_layer.md R102). -/
theorem exec_offsetFrame (h : s.seq = .run i k) (hm : (microSteps i)[k]? = some (.offsetFrame off))
    (hk : k + 1 ≠ i.stepCount) :
    exec i s = .next { s with
      history := s.history ++ [.write 0x53#7 [off]], env := s.env.onWrite 0x53#7 [off], seq := .run i (k + 1) } :=
  exec_mid h hm hk

/-- The read frame of a command that goes on after it, for the list `r` the environment returns. -/
theorem exec_readFrame_mid (h : s.seq = .run i k) (hm : (microSteps i)[k]? = some .readFrame) (hk : k + 1 ≠ i.stepCount)
    (hr : s.env.answer s.history 0x53#7 1 = r) :
    exec i s = .next { s with
      history := s.history ++ [.read 0x53#7 1 r], env := s.env.afterRead 0x53#7 1,
      t := byteOf r, err := (s.err || r.length != 1), seq := .run i (k + 1) } := by
  rw [exec_mid h hm hk, MicroStep.perform, readTxnByte_eq hr]

/-- The read frame that ends a command, whose response data is computed from the byte read. -/
theorem exec_readFrame_last (h : s.seq = .run i k) (hm : (microSteps i)[k]? = some .readFrame) (hk : k + 1 = i.stepCount)
    (hr : s.env.answer s.history 0x53#7 1 = r) :
    exec i s = .next { s with
      history := s.history ++ [.read 0x53#7 1 r], env := s.env.afterRead 0x53#7 1,
      t := byteOf r, err := (s.err || r.length != 1),
      resp := { valid := true, kind := 0b00#2, data := resultOf i (byteOf r) },
      responses := s.responses ++ [(0b00#2, resultOf i (byteOf r))], seq := .idle } := by
  rw [exec_last h hm hk, MicroStep.perform, readTxnByte_eq hr]
  rfl

end

/-! ### The bytes the read-modify-writes write back (41_device_session.md R127) -/

/-- SETRANGE's `~M` is 0xFC. -/
theorem mergeBits_range (t code : Byte) :
    mergeBits t rangeOwnedBits (rangeCode code) = (t &&& 0xFC#8) ||| (code &&& 0x03#8) := rfl

theorem getLsbD_tapMask : ∀ (x y z : Bool) (k : Fin 8),
    (tapMask x y z).getLsbD k = if k = 0 then z else if k = 1 then y else if k = 2 then x else false := by decide

/-- SETTAPXYZ's `~M` keeps the upper five bits. -/
theorem getLsbD_not_axesOwnedBits : ∀ k : Fin 8, (~~~axesOwnedBits).getLsbD k = decide (3 ≤ k) := by decide

/-- A byte with the upper five bits of `t` and x, y, z in bits 2, 1, 0 is the one SETTAPXYZ writes back. -/
theorem eq_mergeBits_axes {t out : Byte} {x y z : Bool} (hup : out.extractLsb' 3 5 = t.extractLsb' 3 5)
    (hx : out.getLsbD 2 = x) (hy : out.getLsbD 1 = y) (hz : out.getLsbD 0 = z) :
    out = mergeBits t axesOwnedBits (tapMask x y z) := by
  have hkept (k : Nat) (hk : k < 5) : out.getLsbD (k + 3) = t.getLsbD (k + 3) := by
    simpa [hk, Nat.add_comm] using congrArg (BitVec.getLsbD · k) hup
  refine BitVec.eq_of_getLsbD_eq fun k hk => ?_
  rw [mergeBits, BitVec.getLsbD_or, BitVec.getLsbD_and, getLsbD_not_axesOwnedBits ⟨k, hk⟩,
    getLsbD_tapMask x y z ⟨k, hk⟩]
  match k with
  | 0 => simpa using hz
  | 1 => simpa using hy
  | 2 => simpa using hx
  | k + 3 => simp [hkept k (by omega), Fin.ext_iff, Fin.le_def]

end Sys2Proof.Machine
end

section
/-! PROOF. The Device Session commands, each from its words to its response (41_device_session.md R120 to R126). Settles O24,
O25, O26, O27 and O29. -/

namespace Sys2Proof
open Machine

/-- Settles O24: the one word of row 2, the acceptance whatever BUSUP, the five micro-steps; the identity test sees the byte
of the list read. -/
theorem initFiveMicroSteps : Obligations.InitFiveMicroSteps := by
  refine ⟨fun w hop => decode_op (n := 2) hop (and_fullMask_iff w _), fun _ => exec_init_idle,
    fun _ h => exec_mid h rfl (by decide), fun _ h => exec_mid h rfl (by decide), fun _ h => exec_mid h rfl (by decide),
    fun _ h => exec_offsetFrame h rfl (by decide), fun _ _ h hr => ?_⟩
  rw [exec_readFrame_last h rfl rfl hr, resultOf, identityResult_byteOf]

/-- Settles O25: row 3 asks for the two fields clear; the two frames of the read, then the write of the merged byte. -/
theorem setrangeMergesLowTwoBits : Obligations.SetrangeMergesLowTwoBits := by
  refine ⟨fun w hop => decode_op (n := 3) hop
      ((and_mask_eq_iff (mid := 4) (lo := 8) hop).trans (reserved_rsel_clear_iff w)),
    fun _ _ => exec_idle (by simp), fun _ _ h => exec_offsetFrame h rfl (by simp [Instr.stepCount]),
    fun _ _ _ h => exec_readFrame_mid h rfl (by simp [Instr.stepCount]), fun code out s h hout => ?_⟩
  obtain rfl := hout.trans (mergeBits_range s.t code).symm
  exact exec_write_last h rfl rfl rfl rfl

/-- Settles O26: row 4 asks for the nine bits above the operands clear; the steps as in SETRANGE, the merged byte by its
bits. -/
theorem settapxyzMergesLowThreeBits : Obligations.SettapxyzMergesLowThreeBits := by
  refine ⟨fun _ hop => decode_op (n := 4) hop (and_mask_eq_iff (mid := 9) (lo := 3) hop),
    fun _ _ _ _ => exec_idle (by simp), fun _ _ _ _ h => exec_offsetFrame h rfl (by simp [Instr.stepCount]),
    fun _ _ _ _ _ h => exec_readFrame_mid h rfl (by simp [Instr.stepCount]), fun x y z out s h hup hx hy hz => ?_⟩
  obtain rfl := eq_mergeBits_axes hup hx hy hz
  exact exec_write_last h rfl rfl rfl rfl

/-- Settles O27: rows 5 to 7 ask for the same four bits clear; each command is one write transaction. -/
theorem directSettersWriteWholeRegister : Obligations.DirectSettersWriteWholeRegister := by
  refine ⟨fun _ hop => decode_op (n := 5) hop (and_mask_eq_iff (mid := 4) (lo := 8) hop),
    fun _ hop => decode_op (n := 6) hop (and_mask_eq_iff (mid := 4) (lo := 8) hop),
    fun _ hop => decode_op (n := 7) hop (and_mask_eq_iff (mid := 4) (lo := 8) hop), fun i v s hi => ?_,
    fun i off v s hi h => ?_⟩
  · obtain rfl | rfl | rfl := hi <;> exact exec_idle (by simp)
  · obtain ⟨rfl, rfl⟩ | ⟨rfl, rfl⟩ | ⟨rfl, rfl⟩ := hi <;> exact exec_write_last h rfl rfl rfl rfl

/-- Settles O29: the one word of row 8; the two frames of the read, the second one answering with the byte itself. -/
theorem getintsrcReturnsRawByte : Obligations.GetintsrcReturnsRawByte :=
  ⟨fun w hop => decode_op (n := 8) hop (and_fullMask_iff w _), fun _ => exec_idle (by simp),
    fun _ h => exec_offsetFrame h rfl (by decide), fun _ _ h => exec_readFrame_last h rfl rfl⟩

end Sys2Proof
end

section
/-! PROOF. The two refusals (60_exceptions.md R153, R155), each as one step from the word on the port. Settles O15. -/

namespace Sys2Proof.Machine

section
variable {s : State} {w : Word} {rest : List HostInput}

/-- A refusal at Idle leaves SEQ and writes RESP over what taking the word cleared, so only the response and the word taken
remain (40_bus_transaction_layer.md R100). -/
theorem refuse_takeWord (kind : RespKind) (h : s.seq = .idle) : refuse kind (takeWord s) = refusedWith kind.code s := by
  cases s
  cases h
  rfl

theorem step_command_word {i : Instr} (h : s.seq = .idle) (hhost : s.host = .word w :: rest) (hd : decode w = .command i) :
    step s = exec i (environmentMoves s) := by
  have hact : nextAction (environmentMoves s) = .command i := by
    rw [nextAction_word (s := environmentMoves s) h hhost, hd]
  rw [step, controllerStep, hact]

theorem step_illegal_word (h : s.seq = .idle) (hhost : s.host = .word w :: rest) (hd : decode w = .illegal w) :
    step s = .next (acceptIllegal (environmentMoves s)) := by
  have hact : nextAction (environmentMoves s) = .illegal := by
    rw [nextAction_word (s := environmentMoves s) h hhost, hd]
  rw [step, controllerStep, hact]

/-- A refusal in the step that takes the word, field by field: the response, the host, and the environment's own moves. -/
theorem refusedWith_environmentMoves (code : BitVec 2) (hhost : s.host = .word w :: rest) :
    refusedWith code (environmentMoves s) = { s with
      resp := { valid := true, kind := code, data := 0x00#8 }, responses := s.responses ++ [(code, 0x00#8)],
      host := rest, env := s.env.advance } := by
  simp [refusedWith, environmentMoves, hhost]

end

/-- Settles O15: an illegal word is refused before BUSUP is looked at; a command other than INIT is refused by its own
acceptance, BUSUP being 0. -/
theorem refusalsChangeOnlyTheResponse : Obligations.RefusalsChangeOnlyTheResponse := by
  refine fun s w rest h hhost => ⟨fun hillegal => ?_, fun i hcommand hi hdown => ?_⟩
  · rw [step_illegal_word h hhost hillegal, acceptIllegal, refuse_takeWord (s := environmentMoves s) .illegal h,
      refusedWith_environmentMoves _ hhost]
    rfl
  · have hrefused : acceptedOrNotReady i (environmentMoves s) = refusedWith 0b10#2 (environmentMoves s) :=
      if_neg (by simp [hdown])
    rw [step_command_word h hhost hcommand, exec_idle (s := environmentMoves s) hi h, hrefused,
      refusedWith_environmentMoves _ hhost]

end Sys2Proof.Machine
end

section
/-! PROOF. Encode and decode (30_encoding.md R71 to R79): a row of the opcode map said field by field, the word of every
command, the command of every word, and which words are illegal. Settles O2, O3 and O5. -/

namespace Sys2Proof

/-! ### A row, field by field -/

/-- What row `n` of 30_encoding.md R73 asks below the operation code: the reserved bit is clear, and so is every bit the
command does not use (R75). -/
def RowFieldsOk (w : Word) (n : Fin 9) : Prop :=
  w.getLsbD 11 = false ∧ (1 < n → rselField w = 0#3) ∧ (n = 1 ∨ n = 2 ∨ n = 8 → imm8Field w = 0#8) ∧
    (n = 4 → w.extractLsb' 3 5 = 0#5)

/-- A field of 0 is a stretch of bits that are 0. -/
theorem extractLsb'_eq_zero_iff (w : Word) (lo len : Nat) :
    w.extractLsb' lo len = 0#len ↔ ∀ k, lo ≤ k → k < lo + len → w.getLsbD k = false := by
  constructor
  · intro h k hlo hk
    simpa [show k - lo < len by omega, Nat.add_sub_cancel' hlo] using congrArg (BitVec.getLsbD · (k - lo)) h
  · intro h
    ext k hk
    simpa using h (lo + k) (by omega) (by omega)

theorem extractLsb'_add_eq_zero_iff (w : Word) (lo a b : Nat) :
    w.extractLsb' lo (a + b) = 0#(a + b) ↔ w.extractLsb' lo a = 0#a ∧ w.extractLsb' (lo + a) b = 0#b := by
  simp only [extractLsb'_eq_zero_iff]
  constructor
  · exact fun h => ⟨fun k hlo hk => h k hlo (by omega), fun k hlo hk => h k (by omega) (by omega)⟩
  · rintro ⟨hlow, hhigh⟩ k hlo hk
    by_cases hmid : k < lo + a
    · exact hlow k hlo hmid
    · exact hhigh k (by omega) (by omega)

/-- Row 0 looks at nothing below the operation code but the reserved bit. -/
theorem reserved_clear_iff (w : Word) : w.extractLsb' 11 1 = 0#1 ↔ w.getLsbD 11 = false := by
  rw [extractLsb'_eq_zero_iff]
  exact ⟨fun h => h 11 le_rfl (by decide), fun h k hlo hk => (show k = 11 by omega) ▸ h⟩

/-- Rows 2 and 8 look at all twelve bits. -/
theorem low_twelve_clear_iff (w : Word) :
    w.extractLsb' 0 12 = 0#12 ↔ w.getLsbD 11 = false ∧ rselField w = 0#3 ∧ imm8Field w = 0#8 := by
  rw [extractLsb'_add_eq_zero_iff w 0 8 4, reserved_rsel_clear_iff, imm8Field, and_comm, and_assoc]

/-- Row 4 looks at the nine bits above x, y and z. -/
theorem above_axes_clear_iff (w : Word) :
    w.extractLsb' 3 9 = 0#9 ↔ w.getLsbD 11 = false ∧ rselField w = 0#3 ∧ w.extractLsb' 3 5 = 0#5 := by
  rw [extractLsb'_add_eq_zero_iff w 3 5 4, reserved_rsel_clear_iff, and_comm, and_assoc]

theorem rowMatches_rdreg_iff {w : Word} (hop : w.extractLsb' 12 4 = 0x1#4) :
    rowMatches w (opcodeRows[(1 : Fin 9).val]!) = true ↔ w.getLsbD 11 = false ∧ imm8Field w = 0#8 := by
  refine ⟨fun h => ⟨reserved_clear_of_rowMatches h, imm8_zero_of_rowMatches_rdreg h⟩, fun h => ?_⟩
  have hd := decode_op_rdreg hop
  rw [if_pos h] at hd
  exact rowMatches_op_of_decode hd

/-- A word with the operation code of row `n` matches the row exactly when its fields are as the row asks. -/
theorem rowMatches_iff_fields {w : Word} {n : Fin 9} (hop : w.extractLsb' 12 4 = BitVec.ofNat 4 n.val) :
    rowMatches w (opcodeRows[n.val]!) = true ↔ RowFieldsOk w n := by
  match n with
  | 0 =>
    exact ((rowMatches_iff ..).trans (and_mask_eq_iff (mid := 1) (lo := 11) hop)).trans
      (by simp [RowFieldsOk, reserved_clear_iff])
  | 1 => simpa [RowFieldsOk] using rowMatches_rdreg_iff hop
  | 2 | 8 =>
    exact ((rowMatches_iff ..).trans (and_mask_eq_iff (mid := 12) (lo := 0) hop)).trans
      (by simp [RowFieldsOk, low_twelve_clear_iff])
  | 3 | 5 | 6 | 7 =>
    exact ((rowMatches_iff ..).trans (and_mask_eq_iff (mid := 4) (lo := 8) hop)).trans
      (by simp [RowFieldsOk, reserved_rsel_clear_iff])
  | 4 =>
    exact ((rowMatches_iff ..).trans (and_mask_eq_iff (mid := 9) (lo := 3) hop)).trans
      (by simp [RowFieldsOk, above_axes_clear_iff])

/-! ### The word of a command -/

/-- A word of format C16 whose fields are as row `n` asks is the command of that row. -/
theorem decode_formatC16 {n : Fin 9} {op : BitVec 4} {sel : BitVec 3} {imm : Byte} (hop : op = BitVec.ofNat 4 n.val)
    (hfields : RowFieldsOk (formatC16 op sel imm) n) :
    decode (formatC16 op sel imm) = .command (rowCommand (formatC16 op sel imm) n) :=
  decode_eq_rowCommand ((rowMatches_iff_fields ((Laws.ReservedBit.formatC16_fields ..).1.trans hop)).mpr hfields)

/-- Rows 3, 5, 6 and 7 ask for no more than a clear selector (30_encoding.md R73). -/
theorem rowFieldsOk_formatC16 {n : Fin 9} (op : BitVec 4) (imm : Byte) (h : n = 3 ∨ n = 5 ∨ n = 6 ∨ n = 7) :
    RowFieldsOk (formatC16 op 0#3 imm) n := by
  refine ⟨(Laws.ReservedBit.formatC16_fields ..).2, fun _ => rselField_formatC16 .., ?_, ?_⟩ <;>
    obtain rfl | rfl | rfl | rfl := h <;> simp

/-- Decode and encode agree (30_encoding.md R71 to R76). -/
theorem decode_encode (i : Instr) : decode (encode i) = .command i := by
  cases i with
  | wrreg reg v => exact Machine.decode_encode_wrreg reg v
  | rdreg reg => exact Machine.decode_encode_rdreg reg
  | init => decide
  | setrange code =>
    exact (decode_formatC16 (n := 3) rfl (rowFieldsOk_formatC16 _ code (by simp))).trans (by simp [rowCommand])
  | settapxyz x y z => revert x y z; decide
  | settapthr v =>
    exact (decode_formatC16 (n := 5) rfl (rowFieldsOk_formatC16 _ v (by simp))).trans (by simp [rowCommand])
  | settapdur v =>
    exact (decode_formatC16 (n := 6) rfl (rowFieldsOk_formatC16 _ v (by simp))).trans (by simp [rowCommand])
  | setinten f =>
    exact (decode_formatC16 (n := 7) rfl (rowFieldsOk_formatC16 _ f (by simp))).trans (by simp [rowCommand])
  | getintsrc => decide

/-- Settles O2: row by row, the word of a command has the fields its row asks for. -/
theorem decodeEncodeAgree : Obligations.DecodeEncodeAgree := decode_encode

/-! ### The command of a word -/

theorem DevReg.rsel_ofRsel : ∀ sel : BitVec 3, (DevReg.ofRsel sel).rsel = sel := by decide

/-- The immediate of row 4 is its three axis bits (30_encoding.md R74). -/
theorem axesImm_eq_imm8Field {w : Word} (h : w.extractLsb' 3 5 = 0#5) :
    axesImm (w.getLsbD 2) (w.getLsbD 1) (w.getLsbD 0) = imm8Field w := by
  rw [extractLsb'_eq_zero_iff] at h
  refine BitVec.eq_of_getLsbD_eq fun k hk => ?_
  rw [show axesImm = Machine.tapMask from rfl, Machine.getLsbD_tapMask _ _ _ ⟨k, hk⟩, imm8Field,
    BitVec.getLsbD_extractLsb']
  match k with
  | 0 | 1 | 2 => simp
  | k + 3 => simp [h (k + 3) (by omega) (by omega), Fin.ext_iff]

/-- The command of row `n` is encoded as the fields of the word it was read from. -/
theorem encode_rowCommand {w : Word} {n : Fin 9} (h : RowFieldsOk w n) :
    encode (rowCommand w n) = formatC16 (BitVec.ofNat 4 n.val) (rselField w) (imm8Field w) := by
  obtain ⟨-, hsel, himm, haxes⟩ := h
  match n with
  | 0 => simp [rowCommand, encode, DevReg.rsel_ofRsel, Instr.op]
  | 1 => simp [rowCommand, encode, DevReg.rsel_ofRsel, Instr.op, himm]
  | 2 | 8 => simp [rowCommand, encode, Instr.op, himm, hsel]
  | 3 | 5 | 6 | 7 => simp [rowCommand, encode, Instr.op, hsel]
  | 4 => rw [rowCommand, encode, axesImm_eq_imm8Field (haxes rfl), hsel (by decide)]; rfl

theorem encode_of_decode {w : Word} {i : Instr} (h : decode w = .command i) : encode i = w := by
  obtain ⟨n, hrow⟩ : ∃ n : Fin 9, rowMatches w (opcodeRows[n.val]!) = true :=
    ⟨⟨i.op.toNat, i.op_lt⟩, rowMatches_op_of_decode h⟩
  have hop := op_bits_of_rowMatches hrow
  obtain rfl : i = rowCommand w n := by simpa [h] using decode_eq_rowCommand hrow
  rw [encode_rowCommand ((rowMatches_iff_fields hop).mp hrow), ← hop,
    formatC16_of_fields (reserved_clear_of_rowMatches hrow)]

/-- Settles O3: a legal word is of format C16 in the fields its row asks for, and so is the word of its command. -/
theorem encodeDecodeAgree : Obligations.EncodeDecodeAgree := fun _ _ => encode_of_decode

/-! ### Which words are illegal -/

theorem decode_illegal_eq {w v : Word} (h : decode w = .illegal v) : v = w := by
  obtain ⟨i, hi, -⟩ | ⟨hw, -⟩ := decode_cases w
  · simp [hi] at h
  · simpa [hw] using h.symm

/-- A word with the operation code of a row is illegal exactly when a field is not as the row asks. -/
theorem decode_illegal_iff {w : Word} {n : Fin 9} (hop : w.extractLsb' 12 4 = BitVec.ofNat 4 n.val) :
    decode w = .illegal w ↔ ¬ RowFieldsOk w n := by
  rw [← rowMatches_iff_fields hop]
  refine ⟨fun h hrow => ?_, decode_illegal_of_not_rowMatches hop⟩
  simp [decode_eq_rowCommand hrow] at h

/-- An operation code of 9 or more is illegal (30_encoding.md R75). -/
theorem decode_illegal_of_op {w : Word} (hop : 0x9#4 ≤ w.extractLsb' 12 4) : decode w = .illegal w := by
  obtain ⟨i, -, hrow⟩ | ⟨hillegal, -⟩ := decode_cases w
  · rw [op_bits_of_rowMatches (n := ⟨i.op.toNat, i.op_lt⟩) hrow] at hop
    have := i.op_lt
    simp [BitVec.le_def] at hop
    omega
  · exact hillegal

/-- Settles O5: by the operation code: 9 or more, or that of a row, whose fields the other four reasons deny. -/
theorem illegalWords : Obligations.IllegalWords := by
  refine ⟨fun w => ?_, fun w v => decode_illegal_eq⟩
  by_cases hop : 0x9#4 ≤ w.extractLsb' 12 4
  · simp [hop, decode_illegal_of_op hop]
  · obtain ⟨n, hn⟩ : ∃ n : Fin 9, w.extractLsb' 12 4 = BitVec.ofNat 4 n.val :=
      ⟨⟨(w.extractLsb' 12 4).toNat, by simpa [BitVec.le_def] using hop⟩, ((BitVec.ofNat_toNat 4 _).trans (BitVec.setWidth_eq _)).symm⟩
    rw [decode_illegal_iff hn, RowFieldsOk]
    clear hop
    generalize w.extractLsb' 12 4 = op at hn
    subst hn
    fin_cases n <;> simp [imp_iff_not_or]

end Sys2Proof
end

section
/-! PROOF. The words of the assembler (30_encoding.md R79) and of R84, and how many words are legal (R75). Settles O7, O1 and
O6. -/

namespace Sys2Proof

/-! ### The assembler -/

/-- Format C16 by the arithmetic of 30_encoding.md R79. -/
theorem toNat_formatC16 (op : BitVec 4) (sel : BitVec 3) (imm : Byte) :
    (formatC16 op sel imm).toNat = (op.toNat <<< 12) ||| (sel.toNat <<< 8) ||| imm.toNat := by
  rw [formatC16, BitVec.toNat_append, BitVec.toNat_append, BitVec.toNat_append]
  simp [Nat.shiftLeft_or_distrib, ← Nat.shiftLeft_add]

theorem toNat_ofNat_of_immediateOk {imm : Nat} (h : immediateOk imm = true) : (BitVec.ofNat 8 imm).toNat = imm := by
  have himm : imm ≤ 255 := of_decide_eq_true h
  rw [BitVec.toNat_ofNat]
  omega

theorem toNat_axesImm : ∀ x y z : Fin 2,
    (axesImm (x.val != 0) (y.val != 0) (z.val != 0)).toNat = (x.val <<< 2) ||| (y.val <<< 1) ||| z.val := by decide

theorem lt_two_of_booleanOk {b : Nat} (h : booleanOk b = true) : b < 2 := Nat.lt_succ_of_le (of_decide_eq_true h)

/-- The arithmetic of a well-formed line gives the word of its command. -/
theorem AsmLine.word_eq_encode {a : AsmLine} (h : a.wellFormed = true) : a.word = (encode a.toInstr).toNat := by
  cases a with
  | wrreg reg imm => simp [word, toInstr, encode, Instr.op, toNat_formatC16, toNat_ofNat_of_immediateOk h]
  | rdreg reg => simp [word, toInstr, encode, Instr.op, toNat_formatC16]
  | init => rfl
  | setrange imm | settapthr imm | settapdur imm | setinten imm =>
    simp [word, toInstr, encode, Instr.op, toNat_formatC16, toNat_ofNat_of_immediateOk h]
  | settapxyz x y z =>
    obtain ⟨⟨hx, hy⟩, hz⟩ : (booleanOk x = true ∧ booleanOk y = true) ∧ booleanOk z = true := by simpa [wellFormed] using h
    have haxes := toNat_axesImm ⟨x, lt_two_of_booleanOk hx⟩ ⟨y, lt_two_of_booleanOk hy⟩ ⟨z, lt_two_of_booleanOk hz⟩
    simp only at haxes
    simp [word, toInstr, encode, Instr.op, toNat_formatC16, haxes, Nat.or_assoc]
  | getintsrc => rfl

/-- Settles O7: the line's word is its command's, which decodes back. -/
theorem assemblerWordsDecode : Obligations.AssemblerWordsDecode := by
  intro a h
  rw [AsmLine.word_eq_encode h]
  exact ⟨(encode a.toInstr).isLt, by rw [BitVec.ofNat_toNat, BitVec.setWidth_eq, decode_encode]⟩

/-- Settles O1: fixed words, by evaluation. -/
theorem workedWordsDecode : Obligations.WorkedWordsDecode := by
  unfold Obligations.WorkedWordsDecode
  decide

/-! ### How many words are legal -/

/-- The operands of the nine commands, side by side (30_encoding.md R74); a register is its selector. -/
abbrev Operands : Type :=
  (BitVec 3 × Byte) ⊕ BitVec 3 ⊕ Unit ⊕ Byte ⊕ (Bool × Bool × Bool) ⊕ Byte ⊕ Byte ⊕ Byte ⊕ Unit

/-- The operands of a command. -/
def Instr.operands : Instr → Operands
  | .wrreg reg v => .inl (reg.rsel, v)
  | .rdreg reg => .inr (.inl reg.rsel)
  | .init => .inr (.inr (.inl ()))
  | .setrange code => .inr (.inr (.inr (.inl code)))
  | .settapxyz x y z => .inr (.inr (.inr (.inr (.inl (x, y, z)))))
  | .settapthr v => .inr (.inr (.inr (.inr (.inr (.inl v)))))
  | .settapdur v => .inr (.inr (.inr (.inr (.inr (.inr (.inl v))))))
  | .setinten f => .inr (.inr (.inr (.inr (.inr (.inr (.inr (.inl f)))))))
  | .getintsrc => .inr (.inr (.inr (.inr (.inr (.inr (.inr (.inr ())))))))

theorem DevReg.rsel_injective : Function.Injective DevReg.rsel := Function.LeftInverse.injective DevReg.ofRsel_rsel

theorem Instr.operands_bijective : Function.Bijective Instr.operands := by
  constructor
  · intro i j h
    cases i <;> cases j <;> simp_all [operands, DevReg.rsel_injective.eq_iff]
  · rintro (⟨sel, v⟩ | sel | ⟨⟩ | code | ⟨x, y, z⟩ | v | v | f | ⟨⟩)
    · exact ⟨.wrreg (.ofRsel sel) v, by rw [operands, DevReg.rsel_ofRsel]⟩
    · exact ⟨.rdreg (.ofRsel sel), by rw [operands, DevReg.rsel_ofRsel]⟩
    · exact ⟨.init, rfl⟩
    · exact ⟨.setrange code, rfl⟩
    · exact ⟨.settapxyz x y z, rfl⟩
    · exact ⟨.settapthr v, rfl⟩
    · exact ⟨.settapdur v, rfl⟩
    · exact ⟨.setinten f, rfl⟩
    · exact ⟨.getintsrc, rfl⟩

theorem card_bitVec (n : Nat) : Nat.card (BitVec n) = 2 ^ n := by
  rw [Nat.card_congr BitVec.equivFin.toEquiv, Nat.card_fin]

theorem card_instr : Nat.card Instr = 3090 := by
  rw [Nat.card_congr (Equiv.ofBijective _ Instr.operands_bijective)]
  simp only [Nat.card_sum, Nat.card_prod, card_bitVec]
  simp

theorem isCommand_iff {w : Word} : (decode w).isCommand = true ↔ w ∈ Set.range encode := by
  constructor
  · intro h
    cases hd : decode w with
    | command i => exact ⟨i, encode_of_decode hd⟩
    | illegal v => simp [hd, Decoded.isCommand] at h
  · rintro ⟨i, rfl⟩
    rw [decode_encode]
    rfl

theorem countP_range_eq_card (q : Nat → Bool) (n : Nat) :
    (List.range n).countP q = ((Finset.range n).filter fun k => q k = true).card := by
  rw [List.countP_eq_length_filter, Finset.card_def, Finset.filter_val, Finset.range_val, Multiset.range,
    Multiset.filter_coe, Multiset.coe_card]
  simp only [Bool.decide_eq_true]

/-- Counting a property of words over the numbers below 2^16 is counting the words that have it. -/
theorem countP_range_ofNat (p : Word → Bool) :
    (List.range 65536).countP (fun n => p (BitVec.ofNat 16 n)) = {w : Word | p w = true}.ncard := by
  have hinj : Set.InjOn (BitVec.ofNat 16) ((Finset.range 65536).filter fun n => p (BitVec.ofNat 16 n) = true) := by
    intro n hn m hm h
    simp only [Finset.coe_filter, Finset.mem_range, Set.mem_ofPred_eq] at hn hm
    have hval : n % 65536 = m % 65536 := congrArg BitVec.toNat h
    omega
  have himage : {w : Word | p w = true} =
      BitVec.ofNat 16 '' ((Finset.range 65536).filter fun n => p (BitVec.ofNat 16 n) = true) := by
    ext w
    refine ⟨fun hw => ⟨w.toNat, ?_, by simp⟩, ?_⟩
    · simpa [w.isLt] using hw
    · rintro ⟨n, hn, rfl⟩
      exact (Finset.mem_filter.mp hn).2
  rw [himage, hinj.ncard_image, Set.ncard_coe_finset, countP_range_eq_card]

/-- Settles O6: the legal words are the words of the commands, one each, and the commands are counted by their operands. -/
theorem legalWordCount : Obligations.LegalWordCount := by
  have hlegal : {w : Word | (decode w).isCommand = true} = Set.range encode := Set.ext fun _ => isCommand_iff
  have hinj : Function.Injective encode := fun i j h => by simpa [decode_encode] using congrArg decode h
  rw [Obligations.LegalWordCount, countP_range_ofNat fun w => (decode w).isCommand, hlegal,
    Set.ncard_range_of_injective hinj, card_instr]

end Sys2Proof
end

section
/-! PROOF. A step of the machine in two equations: at Idle it is what the port asks for (40_bus_transaction_layer.md R100), in
flight it is a micro-step and what SEQ and RESP do after it (10_state.md R23). Settles O8
to O11, O13, O14, O16, O17 and O20, and the operand computations of O28 and O30. -/

namespace Sys2Proof.Machine

/-! ### At Idle -/

/-- What the controller does at Idle, the environment's moves made (40_bus_transaction_layer.md R100). -/
def portStep (s : State) : State :=
  match portAction s with
  | .wait => s
  | .command i => acceptCommand i s
  | .illegal => acceptIllegal s
  | .reset => takeReset s
  | .resetMidCommand => s

theorem controllerStep_idle {s : State} (h : s.seq = .idle) : controllerStep s = .next (portStep s) := by
  have hact : nextAction s = portAction s := by rw [nextAction, h]
  have hnot : portAction s ≠ .resetMidCommand := by
    rw [portAction]
    split
    · simp
    · simp
    · simp
    · split <;> simp
  rw [controllerStep, portStep, hact]
  cases hp : portAction s with
  | wait | illegal | reset => rfl
  | command i => simp only [exec_eq_commandStep, commandStep_idle h]
  | resetMidCommand => exact absurd hp hnot

/-- A step at Idle never stops. -/
theorem step_idle {s : State} (h : s.seq = .idle) : step s = .next (portStep (environmentMoves s)) :=
  controllerStep_idle (s := environmentMoves s) h

theorem portStep_nil {s : State} (h : s.host = []) : portStep s = s := by rw [portStep, portAction, h]

theorem portAction_reset {s : State} {rest : List HostInput} (h : s.host = .reset :: rest ∨ s.host = .resetNow :: rest) :
    portAction s = .reset := by
  obtain h | h := h <;> rw [portAction, h]

theorem portStep_illegal {s : State} {w v : Word} {rest : List HostInput} (h : s.host = .word w :: rest)
    (hd : decode w = .illegal v) : portStep s = refuse .illegal (takeWord s) := by
  simp only [portStep, portAction, h, hd]
  rfl

theorem portStep_command {s : State} {w : Word} {i : Instr} {rest : List HostInput} (h : s.host = .word w :: rest)
    (hd : decode w = .command i) : portStep s = acceptCommand i s := by
  simp only [portStep, portAction, h, hd]

/-- All the controller can do at Idle: wait, refuse a word, accept one, reset. -/
theorem portStep_cases (s : State) :
    portStep s = s ∨
    (s.host ≠ [] ∧ ∃ kind, kind ≠ .ok ∧ portStep s = refuse kind (takeWord s)) ∨
    (s.host ≠ [] ∧ ∃ i, (i = .init ∨ s.busup = true) ∧ portStep s = { takeWord s with seq := .run i 0 }) ∨
    (s.host ≠ [] ∧ portAction s = .reset ∧ portStep s = takeReset s) := by
  match h : s.host with
  | [] => exact .inl (portStep_nil h)
  | .reset :: rest | .resetNow :: rest =>
    have hact := portAction_reset (s := s) (rest := rest) (by simp [h])
    exact .inr (.inr (.inr ⟨by simp, hact, by rw [portStep, hact]⟩))
  | .word w :: rest =>
    cases hd : decode w with
    | illegal v => exact .inr (.inl ⟨by simp, .illegal, by simp, portStep_illegal h hd⟩)
    | command i =>
      rw [portStep_command h hd]
      obtain ⟨-, -, hrefused⟩ | ⟨hi, haccepted⟩ := acceptCommand_cases i s
      · exact .inr (.inl ⟨by simp, .notReady, by simp, hrefused⟩)
      · exact .inr (.inr (.inl ⟨by simp, i, hi, haccepted⟩))

/-! ### In flight -/

@[simp] theorem MicroStep.perform_resp (m : MicroStep) (s : State) : (m.perform s).resp = s.resp := by cases m <;> rfl
@[simp] theorem MicroStep.perform_responses (m : MicroStep) (s : State) : (m.perform s).responses = s.responses := by
  cases m <;> rfl
@[simp] theorem MicroStep.perform_host (m : MicroStep) (s : State) : (m.perform s).host = s.host := by cases m <;> rfl
@[simp] theorem MicroStep.perform_moves (m : MicroStep) (s : State) : (m.perform s).env.moves = s.env.moves := by
  obtain ⟨⟨-, -, -, -, hmoves⟩, -⟩ := m.perform_cases s
  exact hmoves

/-- The state after micro-step `k` of the command `i`, that micro-step being `m` (40_bus_transaction_layer.md R100). -/
def microStepDone (i : Instr) (k : Nat) (m : MicroStep) (s : State) : State :=
  if k + 1 = i.stepCount then respond .ok (resultOf i (m.perform s).t) (m.perform s)
  else { m.perform s with seq := .run i (k + 1) }

section
variable {i c : Instr} {k : Nat} {m : MicroStep} {s t : State}

theorem microStepDone_last (h : k + 1 = i.stepCount) :
    microStepDone i k m s = respond .ok (resultOf i (m.perform s).t) (m.perform s) := if_pos h

theorem microStepDone_mid (h : k + 1 ≠ i.stepCount) :
    microStepDone i k m s = { m.perform s with seq := .run i (k + 1) } := if_neg h

@[simp] theorem microStepDone_err : (microStepDone i k m s).err = (m.perform s).err := by
  unfold microStepDone; split <;> rfl
@[simp] theorem microStepDone_busup : (microStepDone i k m s).busup = (m.perform s).busup := by
  unfold microStepDone; split <;> rfl
@[simp] theorem microStepDone_t : (microStepDone i k m s).t = (m.perform s).t := by
  unfold microStepDone; split <;> rfl
@[simp] theorem microStepDone_history : (microStepDone i k m s).history = (m.perform s).history := by
  unfold microStepDone; split <;> rfl
@[simp] theorem microStepDone_env : (microStepDone i k m s).env = (m.perform s).env := by
  unfold microStepDone; split <;> rfl
@[simp] theorem microStepDone_host : (microStepDone i k m s).host = s.host := by
  unfold microStepDone; split <;> simp

theorem exec_run (h : s.seq = .run c k) (hm : (microSteps i)[k]? = some m) : exec i s = .next (microStepDone i k m s) := by
  rw [exec_eq_commandStep]
  by_cases hk : k + 1 = i.stepCount
  · rw [commandStep_last h hm (by rwa [length_microSteps]), microStepDone_last hk]
  · rw [commandStep_mid h hm (by rwa [length_microSteps]), microStepDone_mid hk]

theorem getElem?_microSteps (h : k < i.stepCount) : ∃ m, (microSteps i)[k]? = some m :=
  ⟨_, List.getElem?_eq_getElem (by rwa [length_microSteps])⟩

theorem lt_stepCount (h : (microSteps i)[k]? = some m) : k < i.stepCount := by
  rw [← length_microSteps]
  exact (List.getElem?_eq_some_iff.mp h).1

/-- A micro-step the command does not have. -/
theorem exec_fault (h : s.seq = .run c k) (hk : i.stepCount ≤ k) : exec i s = .fault .noSuchMicroStep := by
  have hnone : (microSteps i)[k]? = none := List.getElem?_eq_none (by rwa [length_microSteps])
  rw [exec_eq_commandStep, commandStep, h]
  simp only [hnone]

theorem exec_run_cases (h : s.seq = .run c k) (hexec : exec i s = .next t) :
    ∃ m, (microSteps i)[k]? = some m ∧ t = microStepDone i k m s := by
  by_cases hk : k < i.stepCount
  · obtain ⟨m, hm⟩ := getElem?_microSteps hk
    rw [exec_run h hm, Host.Outcome.next.injEq] at hexec
    exact ⟨m, hm, hexec.symm⟩
  · simp [exec_fault h (Nat.le_of_not_lt hk)] at hexec

/-- While a command is in flight a step is that command's, unless reset is asserted at once. -/
theorem step_eq_exec (h : s.seq = .run i k) (hr : s.host.head? ≠ some .resetNow) : step s = exec i (environmentMoves s) := by
  rw [step, controllerStep, nextAction_run (s := environmentMoves s) h hr]

/-- Reset asserted while a command is in flight (70_reset_and_hazards.md R181). -/
theorem step_resetNow (h : s.seq = .run i k) (hr : s.host.head? = some .resetNow) :
    step s = .refused .resetMidCommand := by
  obtain ⟨rest, hhost⟩ := List.head?_eq_some_iff.mp hr
  rw [step, controllerStep, nextAction, environmentMoves_seq, h, environmentMoves_host, hhost]

theorem step_microStep (h : s.seq = .run i k) (hr : s.host.head? ≠ some .resetNow) (hm : (microSteps i)[k]? = some m) :
    step s = .next (microStepDone i k m (environmentMoves s)) :=
  (step_eq_exec h hr).trans (exec_run (s := environmentMoves s) h hm)

/-- All a step that goes on can be, as the state it goes on to. -/
theorem step_next_cases (hs : step s = .next t) :
    (s.seq = .idle ∧ t = portStep (environmentMoves s)) ∨
    ∃ i k m, s.seq = .run i k ∧ (microSteps i)[k]? = some m ∧ t = microStepDone i k m (environmentMoves s) := by
  cases h : s.seq with
  | idle => exact .inl ⟨rfl, by simpa [step_idle h] using hs.symm⟩
  | run i k =>
    obtain ⟨m, hm, ht⟩ := exec_run_cases (s := environmentMoves s) h (step_run h hs)
    exact .inr ⟨i, k, m, rfl, hm, ht⟩

end

/-! ### Reset and the command cycle -/

/-- Settles O8: the table word is the low 16 bits, and what it decodes to is what an Idle step takes. -/
theorem fetchWordIsTakenNext : Obligations.FetchWordIsTakenNext := by
  intro s w
  have hword : tableWord 16 w = BitVec.ofNat 16 w := BitVec.eq_of_toNat_eq (by simp [tableWord])
  have hfetch : s.withFetchWord 16 w = { s with seq := .idle, host := .word (BitVec.ofNat 16 w) :: s.host } := by
    rw [State.withFetchWord, hword, presentWord]
  refine ⟨hfetch, ?_⟩
  rw [decodeTableWord, hword, hfetch]
  cases hd : decode (BitVec.ofNat 16 w) with
  | command i => exact step_command_word rfl rfl hd
  | illegal v =>
    obtain rfl := decode_illegal_eq hd
    exact step_illegal_word rfl rfl hd

/-- Settles O9: the reset state is written out field by field. -/
theorem resetValues : Obligations.ResetValues := ⟨rfl, rfl, rfl, rfl, rfl, rfl⟩

/-- Settles O10: at Idle both reset inputs are taken, and the environment has only made its moves. -/
theorem hardwareResetAtIdle : Obligations.HardwareResetAtIdle := by
  intro s rest h hhost
  have hport : portStep (environmentMoves s) = takeReset (environmentMoves s) := by
    rw [portStep, portAction_reset (s := environmentMoves s) hhost]
  have hrest : s.host.tail = rest := by obtain hhost | hhost := hhost <;> rw [hhost] <;> rfl
  exact ⟨_, by rw [step_idle h, hport], rfl, rfl, rfl, rfl, rfl, rfl, rfl, hrest⟩

/-- Settles O11: in flight the host's first input decides between the refusal and the command's own step. -/
theorem resetMidCommandIsRefused : Obligations.ResetMidCommandIsRefused := fun _ _ _ _ h =>
  ⟨fun hhost => step_resetNow h (by rw [hhost]; rfl), fun hhost => step_eq_exec h (by simp [hhost])⟩

/-- Settles O13: the word on the port decides. -/
theorem stepRunsPresentedWord : Obligations.StepRunsPresentedWord := fun _ _ _ h hhost =>
  ⟨fun _ => step_command_word h hhost, step_illegal_word h hhost⟩

/-- Settles O14: in flight by `step_eq_exec`; at Idle an empty port asks for nothing. -/
theorem stepGoesOnWithCommand : Obligations.StepGoesOnWithCommand :=
  ⟨fun _ _ _ => step_eq_exec, fun s h hhost => by rw [step_idle h, portStep_nil (s := environmentMoves s) hhost]⟩

/-- Settles O16: INIT is accepted whatever BUSUP, every other command because BUSUP is 1. -/
theorem acceptanceStartsCommand : Obligations.AcceptanceStartsCommand := by
  intro s i h hup
  by_cases hi : i = .init
  · subst hi
    exact exec_init_idle h
  · rw [exec_idle hi h, acceptedOrNotReady, if_pos (hup.resolve_right hi)]
    rfl

/-- Settles O17: the list of micro-steps ends before `k`. -/
theorem noSuchMicroStepFaults : Obligations.NoSuchMicroStepFaults := fun _ _ _ _ => exec_fault

/-- Settles O20: a write transaction is its one frame by definition. -/
theorem writeTxnIsOneFrame : Obligations.WriteTxnIsOneFrame := fun _ _ _ => rfl

/-! ### Operand computations -/

/-- Settles O28: the eight flags, by evaluation at each of their values. -/
theorem interruptFlagPositions : Obligations.InterruptFlagPositions := by
  unfold Obligations.InterruptFlagPositions
  decide

section
variable {t m n : Byte}

/-- A read-modify-write keeps the bits it does not own, provided its own bits stay inside the mask (R130). -/
theorem mergeBits_and_not (h : n &&& ~~~m = 0#8) : mergeBits t m n &&& ~~~m = t &&& ~~~m := by
  rw [mergeBits, BitVec.and_or_distrib_right, h, BitVec.and_assoc, BitVec.and_self, BitVec.or_zero]

theorem mergeBits_and (h : n &&& m = n) : mergeBits t m n &&& m = n := by
  rw [mergeBits, BitVec.and_or_distrib_right, h, BitVec.and_assoc, BitVec.not_and_self]
  simp

end

theorem rangeCode_and_not_owned (c : Byte) : rangeCode c &&& ~~~rangeOwnedBits = 0#8 := by
  rw [rangeCode, BitVec.and_assoc, show 0x03#8 &&& ~~~rangeOwnedBits = 0#8 from rfl, BitVec.and_zero]

theorem rangeCode_and_owned (c : Byte) : rangeCode c &&& rangeOwnedBits = rangeCode c := by
  rw [rangeCode, BitVec.and_assoc, show 0x03#8 &&& rangeOwnedBits = 0x03#8 from rfl]

theorem tapMask_inside_owned : ∀ x y z : Bool,
    tapMask x y z &&& ~~~axesOwnedBits = 0#8 ∧ tapMask x y z &&& axesOwnedBits = tapMask x y z := by decide

/-- Settles O30: the operands of both commands stay inside the owned bits. -/
theorem maskingLaws : Obligations.MaskingLaws := fun _ c x y z =>
  ⟨mergeBits_and_not (rangeCode_and_not_owned c), mergeBits_and (rangeCode_and_owned c),
    mergeBits_and_not (tapMask_inside_owned x y z).1, mergeBits_and (tapMask_inside_owned x y z).2⟩

end Sys2Proof.Machine
end

section
/-! PROOF. The invariant of the machine: it holds at reset (O12), every step keeps it (O37), and from it the machine goes on
but for a reset asserted mid-command (O38). Its clauses about the bus do not look at SEQ and are kept apart as `BusInv`. -/

namespace Sys2Proof.Machine

/-! ### The clauses about the bus -/

/-- The clauses of the invariant that do not look at SEQ or RESP: BUSUP, the history and the device. -/
structure State.BusInv (s : State) : Prop where
  busupRecords : s.busup = true ↔ BusEvent.startup ∈ s.history
  startupFirst : s.history = [] ∨ s.history.head? = some .startup
  framesLegal : ∀ e ∈ s.history, BusEvent.Legal e
  memoryCanonical : BusDevice.canonical s.env.device

theorem State.Inv.bus {s : State} (h : s.Inv) : s.BusInv :=
  ⟨h.busupRecords, h.startupFirst, h.framesLegal, h.memoryCanonical⟩

/-- At Idle the invariant is its clauses about the bus and about the last response. -/
theorem State.BusInv.inv_of_idle {s : State} (hbus : s.BusInv) (hidle : s.seq = .idle) (hkind : s.resp.kind ≠ 0b11#2)
    (hlast : s.resp.valid = true → s.responses.getLast? = some (s.resp.kind, s.resp.data)) : s.Inv where
  stepExists := by simp [hidle]
  busyNotValid := by simp [hidle]
  readyWhenRunning := by simp [hidle]
  initStartsBus := by simp [hidle]
  initClearsErr := by simp [hidle]
  kindProduced := hkind
  respIsLast := hlast
  busupRecords := hbus.busupRecords
  startupFirst := hbus.startupFirst
  framesLegal := hbus.framesLegal
  offsetBeforeRead := by simp [hidle]
  tIsTheByteRead := by simp [hidle]
  memoryCanonical := hbus.memoryCanonical

theorem RespKind.code_ne : ∀ kind : RespKind, kind.code ≠ 0b11#2 := by
  intro kind
  cases kind <;> decide

/-- A response keeps the invariant whatever the controller was doing, since it is then Idle. -/
theorem State.BusInv.inv_respond {s : State} (h : s.BusInv) (kind : RespKind) (data : Byte) :
    (respond kind data s).Inv :=
  State.BusInv.inv_of_idle ⟨h.busupRecords, h.startupFirst, h.framesLegal, h.memoryCanonical⟩ rfl kind.code_ne (by simp)

theorem inv_takeReset {s : State} (h : BusDevice.canonical s.env.device) : (takeReset s).Inv :=
  State.BusInv.inv_of_idle ⟨by simp, .inl rfl, by simp, h⟩ rfl (show 0b00#2 ≠ 0b11#2 by decide)
    (by simp [State.reset])

/-- Settles O12: the reset state is what a reset leaves of itself. -/
theorem invariantAtReset : Obligations.InvariantAtReset := inv_takeReset (s := State.reset) trivial

theorem State.Inv.environmentMoves {s : State} (h : s.Inv) : (environmentMoves s).Inv :=
  { h with memoryCanonical := Environment.advance_canonical h.memoryCanonical }

/-! ### At Idle -/

/-- A word taken at Idle and accepted. -/
theorem State.Inv.accept {s : State} (h : s.Inv) {i : Instr} (hi : i = .init ∨ s.busup = true) :
    ({ takeWord s with seq := .run i 0 } : State).Inv where
  stepExists := by
    rintro j k hrun
    obtain ⟨rfl, rfl⟩ : i = j ∧ 0 = k := by simpa using hrun
    cases i <;> simp [Instr.stepCount]
  busyNotValid := fun _ _ _ => rfl
  readyWhenRunning := by
    rintro j k hrun hne
    obtain ⟨rfl, -⟩ : i = j ∧ 0 = k := by simpa using hrun
    exact hi.resolve_left hne
  initStartsBus := fun k hrun hk => by simp [show 0 ≠ k by omega] at hrun
  initClearsErr := fun k hrun hk => by simp [show 0 ≠ k by omega] at hrun
  kindProduced := h.kindProduced
  respIsLast := by simp
  busupRecords := h.busupRecords
  startupFirst := h.startupFirst
  framesLegal := h.framesLegal
  offsetBeforeRead := by simp
  tIsTheByteRead := by simp
  memoryCanonical := h.memoryCanonical

theorem State.Inv.portStep {s : State} (h : s.Inv) : (portStep s).Inv := by
  obtain hwait | ⟨-, kind, -, hrefused⟩ | ⟨-, i, hi, haccepted⟩ | ⟨-, -, hreset⟩ := portStep_cases s
  · rwa [hwait]
  · rw [hrefused]
    exact State.BusInv.inv_respond (s := takeWord s) ⟨h.busupRecords, h.startupFirst, h.framesLegal, h.memoryCanonical⟩ ..
  · rw [haccepted]
    exact h.accept hi
  · rw [hreset]
    exact inv_takeReset h.memoryCanonical

/-! ### In flight -/

/-- INIT's five micro-steps (41_device_session.md R120). -/
theorem init_microStep_cases {k : Nat} {m : MicroStep} (h : (microSteps .init)[k]? = some m) :
    (k = 0 ∧ m = .clearErr) ∨ (k = 1 ∧ m = .startBus) ∨ (k = 2 ∧ m = .write 0x2D#8 0x08#8) ∨
      (k = 3 ∧ m = .offsetFrame 0x00#8) ∨ (k = 4 ∧ m = .readFrame) := by
  have hk := lt_stepCount h
  simp only [Instr.stepCount] at hk
  interval_cases k <;> simpa [microSteps, initSteps, readTxn, Config.initPwrSeq, Config.offPwr, Config.offId] using h.symm

/-- A command that reads, other than INIT, begins with the offset frame (40_bus_transaction_layer.md R102). -/
theorem microSteps_zero_of_reads {i : Instr} (hr : i.reads = true) (hi : i ≠ .init) :
    ∃ off, (microSteps i)[0]? = some (.offsetFrame off) := by
  cases i with
  | init => exact absurd rfl hi
  | wrreg | settapthr | settapdur | setinten => simp [Instr.reads] at hr
  | rdreg | setrange | settapxyz | getintsrc => exact ⟨_, rfl⟩

/-- The middle micro-step of a read-modify-write is its read frame (41_device_session.md R127). -/
theorem microSteps_one_of_readModifyWrite {i : Instr} (h : isReadModifyWrite i = true) :
    (microSteps i)[1]? = some .readFrame := by
  cases i with
  | setrange | settapxyz => rfl
  | wrreg | rdreg | init | settapthr | settapdur | setinten | getintsrc => simp [isReadModifyWrite] at h

section
variable {s : State} {i : Instr} {k : Nat} {m : MicroStep}

/-- Every micro-step but the first two of INIT finds the bus started (10_state.md R22). -/
theorem State.Inv.busup_of_microStep (h : s.Inv) (hrun : s.seq = .run i k) (hm : (microSteps i)[k]? = some m) :
    m = .clearErr ∨ m = .startBus ∨ s.busup = true := by
  by_cases hi : i = .init
  · subst hi
    obtain ⟨-, rfl⟩ | ⟨-, rfl⟩ | ⟨rfl, -⟩ | ⟨rfl, -⟩ | ⟨rfl, -⟩ := init_microStep_cases hm
    · exact .inl rfl
    · exact .inr (.inl rfl)
    all_goals exact .inr (.inr (h.initStartsBus _ hrun (by decide)))
  · exact .inr (.inr (h.readyWhenRunning i k hrun hi))

theorem perform_canonical (h : BusDevice.canonical s.env.device) : BusDevice.canonical (m.perform s).env.device := by
  obtain ⟨-, ⟨-, hp⟩ | ⟨-, hp⟩ | ⟨bytes, hp⟩ | ⟨-, hp⟩⟩ := m.perform_cases s <;> rw [hp]
  · exact h
  · exact h
  · exact Environment.onWrite_canonical h _ _
  · exact Environment.afterRead_canonical h _ _

/-- BUSUP and the handshake in the history change together (10_state.md R22). -/
theorem perform_busupRecords (h : s.busup = true ↔ BusEvent.startup ∈ s.history) :
    (m.perform s).busup = true ↔ BusEvent.startup ∈ (m.perform s).history := by
  obtain ⟨-, ⟨-, hp⟩ | ⟨-, hp⟩ | ⟨bytes, hp⟩ | ⟨-, hp⟩⟩ := m.perform_cases s <;> rw [hp] <;> simp [h]

/-- A micro-step keeps the clauses about the bus: only the startup can be the first event. -/
theorem State.Inv.perform_bus (h : s.Inv) (hrun : s.seq = .run i k) (hm : (microSteps i)[k]? = some m) :
    (m.perform s).BusInv := by
  obtain ⟨es, hes, -, hlegal⟩ := perform_historyGrows hm s
  refine ⟨perform_busupRecords h.busupRecords, ?_, ?_, perform_canonical h.memoryCanonical⟩
  · obtain rfl | rfl | hup := h.busup_of_microStep hrun hm
    · exact h.startupFirst
    · obtain hnil | hhead := h.startupFirst
      · exact .inr (by simp [MicroStep.perform, hnil])
      · exact .inr (by simp [MicroStep.perform, hhead])
    · have hne : s.history ≠ [] := List.ne_nil_of_mem (h.busupRecords.mp hup)
      exact .inr (by rw [hes, List.head?_append_of_ne_nil _ hne, h.startupFirst.resolve_left hne])
  · intro e he
    rw [hes] at he
    exact (List.mem_append.mp he).elim (h.framesLegal e) (hlegal e)

theorem perform_keeps_busup (h : s.busup = true) : (m.perform s).busup = true := by
  cases m with
  | startBus => rfl
  | clearErr | write | offsetFrame | readFrame | writeMerged => exact h

/-- A micro-step that is not the command's last. -/
theorem State.Inv.mid (h : s.Inv) (hrun : s.seq = .run i k) (hm : (microSteps i)[k]? = some m)
    (hk : k + 1 ≠ i.stepCount) : ({ m.perform s with seq := .run i (k + 1) } : State).Inv where
  stepExists := by
    rintro j l hjl
    obtain ⟨rfl, rfl⟩ : i = j ∧ k + 1 = l := by simpa using hjl
    have := lt_stepCount hm
    omega
  busyNotValid := by simp [h.busyNotValid i k hrun]
  readyWhenRunning := by
    rintro j l hjl hj
    obtain ⟨rfl, -⟩ : i = j ∧ k + 1 = l := by simpa using hjl
    exact perform_keeps_busup (h.readyWhenRunning i k hrun hj)
  initStartsBus := by
    rintro l hl h2
    obtain ⟨rfl, rfl⟩ : i = .init ∧ k + 1 = l := by simpa using hl
    obtain rfl | rfl | hup := h.busup_of_microStep hrun hm
    · obtain ⟨-, rfl⟩ := eq_init_zero_of_clearErr hm
      simp at h2
    · rfl
    · exact perform_keeps_busup hup
  initClearsErr := by
    rintro l hl -
    obtain ⟨rfl, -⟩ : i = .init ∧ k + 1 = l := by simpa using hl
    obtain ⟨-, rfl⟩ | ⟨rfl, rfl⟩ | ⟨rfl, rfl⟩ | ⟨rfl, rfl⟩ | ⟨rfl, -⟩ := init_microStep_cases hm
    · rfl
    pick_goal 4
    · exact absurd rfl hk
    all_goals exact h.initClearsErr _ hrun (by decide)
  kindProduced := by simpa using h.kindProduced
  respIsLast := by simpa using h.respIsLast
  busupRecords := (h.perform_bus hrun hm).busupRecords
  startupFirst := (h.perform_bus hrun hm).startupFirst
  framesLegal := (h.perform_bus hrun hm).framesLegal
  offsetBeforeRead := by
    rintro j hj hreads hinit
    obtain ⟨rfl, rfl⟩ : i = j ∧ k = 0 := by simpa using hj
    obtain ⟨off, hoff⟩ := microSteps_zero_of_reads hreads hinit
    obtain rfl : m = .offsetFrame off := Option.some.inj (hm.symm.trans hoff)
    exact ⟨off, List.getLast?_concat⟩
  tIsTheByteRead := by
    rintro j hj hrmw
    obtain ⟨rfl, rfl⟩ : i = j ∧ k = 1 := by simpa using hj
    obtain rfl : m = .readFrame := Option.some.inj (hm.symm.trans (microSteps_one_of_readModifyWrite hrmw))
    exact ⟨_, List.getLast?_concat, readByte_eq_byteOf _⟩
  memoryCanonical := (h.perform_bus hrun hm).memoryCanonical

theorem State.Inv.microStepDone (h : s.Inv) (hrun : s.seq = .run i k) (hm : (microSteps i)[k]? = some m) :
    (microStepDone i k m s).Inv := by
  by_cases hk : k + 1 = i.stepCount
  · rw [microStepDone_last hk]
    exact (h.perform_bus hrun hm).inv_respond ..
  · rw [microStepDone_mid hk]
    exact h.mid hrun hm hk

end

/-- Settles O37: the environment's moves keep the invariant, and so does what the port asks for and every micro-step. -/
theorem everyStepKeepsInvariant : Obligations.EveryStepKeepsInvariant := by
  intro s t h hs
  obtain ⟨-, rfl⟩ | ⟨i, k, m, hrun, hm, rfl⟩ := step_next_cases hs
  · exact h.environmentMoves.portStep
  · exact h.environmentMoves.microStepDone hrun hm

/-- Settles O38: at Idle nothing stops, and in flight SEQ names a micro-step the command has. -/
theorem machineNeverStops : Obligations.MachineNeverStops := by
  intro s h
  cases hseq : s.seq with
  | idle => exact .inl ⟨_, step_idle hseq⟩
  | run i k =>
    by_cases hr : s.host.head? = some .resetNow
    · exact .inr ⟨by simp, hr, step_resetNow hseq hr⟩
    · obtain ⟨m, hm⟩ := getElem?_microSteps (h.stepExists i k hseq)
      exact .inl ⟨_, step_microStep hseq hr hm⟩

end Sys2Proof.Machine
end

section
/-! PROOF. What a step may depend on: two states that agree but for one item step alike. The step is compared once, at Idle and
in flight, for any relation; ERR (10_state.md R21), T (R24) and the environment (R31) then differ in the relation alone. Settles
O41, O42 and O43. -/

namespace Sys2Proof.Machine

section
variable {agree : State → State → Prop} {s s' : State}

/-- Two idle controllers with the same port and BUSUP do the same of four things. -/
theorem agree_portStep (hhost : s'.host = s.host) (hup : s'.busup = s.busup) (hwait : agree s s')
    (hrefuse : ∀ kind, agree (refuse kind (takeWord s)) (refuse kind (takeWord s')))
    (haccept : ∀ i, agree { takeWord s with seq := .run i 0 } { takeWord s' with seq := .run i 0 })
    (hreset : agree (takeReset s) (takeReset s')) : agree (portStep s) (portStep s') := by
  have hport : portAction s' = portAction s := by rw [portAction, portAction, hhost]
  rw [portStep, portStep, hport]
  cases portAction s with
  | wait | resetMidCommand => exact hwait
  | illegal => exact hrefuse .illegal
  | reset => exact hreset
  | command i =>
    simp only [acceptCommand, hup]
    split
    · exact hrefuse .notReady
    · exact haccept i

/-- Two commands at the same micro-step stop alike, or agree when that micro-step's results agree. -/
theorem outcomesAgree_exec {i c : Instr} {k : Nat} (hseq : s.seq = .run c k) (hseq' : s'.seq = .run c k)
    (hrun : ∀ m, (microSteps i)[k]? = some m → agree (microStepDone i k m s) (microStepDone i k m s')) :
    outcomesAgree agree (exec i s) (exec i s') := by
  by_cases hk : k < i.stepCount
  · obtain ⟨m, hm⟩ := getElem?_microSteps hk
    rw [exec_run hseq hm, exec_run hseq' hm]
    exact hrun m hm
  · rw [exec_fault hseq (Nat.le_of_not_lt hk), exec_fault hseq' (Nat.le_of_not_lt hk)]
    rfl

/-- Two states with the same SEQ and host stop alike, or step to states that agree when they do so at Idle and in flight. -/
theorem outcomesAgree_step (hseq : s'.seq = s.seq) (hhost : s'.host = s.host)
    (hidle : s.seq = .idle → agree (portStep (environmentMoves s)) (portStep (environmentMoves s')))
    (hrun : ∀ i k m, s.seq = .run i k → (microSteps i)[k]? = some m →
      step s = .next (microStepDone i k m (environmentMoves s)) →
      agree (microStepDone i k m (environmentMoves s)) (microStepDone i k m (environmentMoves s'))) :
    outcomesAgree agree (step s) (step s') := by
  cases h : s.seq with
  | idle =>
    rw [step_idle h, step_idle (hseq.trans h)]
    exact hidle h
  | run i k =>
    by_cases hr : s.host.head? = some .resetNow
    · rw [step_resetNow h hr, step_resetNow (hseq.trans h) (by rwa [hhost])]
      rfl
    · rw [step_eq_exec h hr, step_eq_exec (hseq.trans h) (by rwa [hhost])]
      exact outcomesAgree_exec (s := environmentMoves s) (s' := environmentMoves s') h (hseq.trans h)
        fun m hm => hrun i k m h hm (step_microStep h hr hm)

/-- The end of a micro-step, by what SEQ and RESP do after it. -/
theorem agree_microStepDone {i : Instr} {k : Nat} {m : MicroStep}
    (hmid : agree { m.perform s with seq := .run i (k + 1) } { m.perform s' with seq := .run i (k + 1) })
    (hlast : k + 1 = i.stepCount → agree (respond .ok (resultOf i (m.perform s).t) (m.perform s))
      (respond .ok (resultOf i (m.perform s').t) (m.perform s'))) :
    agree (microStepDone i k m s) (microStepDone i k m s') := by
  by_cases hk : k + 1 = i.stepCount
  · rw [microStepDone_last hk, microStepDone_last hk]
    exact hlast hk
  · rw [microStepDone_mid hk, microStepDone_mid hk]
    exact hmid

end

/-! ### ERR -/

/-- Settles O41: ERR is an argument of no operation but its own update. -/
theorem nothingDependsOnErr : Obligations.NothingDependsOnErr := by
  intro s s' h
  obtain ⟨e, rfl⟩ : ∃ e, s' = { s with err := e } := ⟨_, h.symm⟩
  refine outcomesAgree_step rfl rfl (fun _ => ?_) fun i k m _ _ _ => agree_microStepDone ?_ fun _ => ?_
  · exact agree_portStep rfl rfl rfl (fun _ => rfl) (fun _ => rfl) rfl
  · cases m <;> rfl
  · cases m <;> rfl

/-! ### T -/

theorem agreeButT_refl (s : State) : agreeButT s s := ⟨rfl, fun _ => rfl⟩

/-- Where SEQ is not at step 2, states that agree but for T agree in the sense of R24. -/
theorem agreeButT_of_seq {s s' : State} (h : { s with t := s'.t } = s') (hseq : ∀ i, s.seq ≠ .run i 2) : agreeButT s s' :=
  ⟨h, fun ⟨i, hi, _⟩ => absurd hi (hseq i)⟩

/-- Only step 2 of a read-modify-write merges with T (41_device_session.md R127). -/
theorem readsT_of_writeMerged {i : Instr} {k : Nat} {off mask n : Byte}
    (h : (microSteps i)[k]? = some (.writeMerged off mask n)) : k = 2 ∧ isReadModifyWrite i = true := by
  have hk := lt_stepCount h
  cases i <;> simp only [Instr.stepCount] at hk <;> interval_cases k <;>
    simp [microSteps, initSteps, readTxn, readModifyWrite, Config.initPwrSeq, isReadModifyWrite] at h ⊢

/-- A command whose response data is computed from T ends with its read frame (30_encoding.md R83). -/
theorem readFrame_or_noData_of_last {i : Instr} {k : Nat} {m : MicroStep} (hm : (microSteps i)[k]? = some m)
    (hk : k + 1 = i.stepCount) : m = .readFrame ∨ resultOf i = noData := by
  obtain rfl : k = i.stepCount - 1 := by omega
  cases i with
  | wrreg | setrange | settapxyz | settapthr | settapdur | setinten => exact .inr rfl
  | rdreg | init | getintsrc => exact .inl (Option.some.inj hm).symm

section
variable {i : Instr} {k : Nat} {m : MicroStep} {s : State} {t : Byte}

/-- Every micro-step but the read frame and the merged write carries T along. -/
theorem perform_setT (hread : m ≠ .readFrame) (hmerge : ∀ off mask n, m ≠ .writeMerged off mask n) :
    m.perform { s with t := t } = { m.perform s with t := t } := by
  cases m with
  | readFrame => exact absurd rfl hread
  | writeMerged off mask n => exact absurd rfl (hmerge off mask n)
  | clearErr | startBus | write | offsetFrame => rfl

theorem agreeButT_microStepDone (hm : (microSteps i)[k]? = some m) (hread : m ≠ .readFrame)
    (hmerge : ∀ off mask n, m ≠ .writeMerged off mask n) :
    agreeButT (microStepDone i k m s) (microStepDone i k m { s with t := t }) := by
  refine agree_microStepDone ?_ fun hk => ?_ <;> rw [perform_setT (s := s) (t := t) hread hmerge]
  · refine ⟨rfl, fun ⟨j, hj, hrmw⟩ => ?_⟩
    obtain ⟨rfl, rfl⟩ : i = j ∧ k = 1 := by simpa using hj
    exact absurd (Option.some.inj (hm.symm.trans (microSteps_one_of_readModifyWrite hrmw))) hread
  · rw [(readFrame_or_noData_of_last hm hk).resolve_left hread]
    exact agreeButT_of_seq rfl (by simp)

end

/-- Settles O42: a read frame forgets the old T, the merged write is the one place where the two agree on it, and no other
micro-step, nor its response, looks at T. -/
theorem tIsReadOnlyByMerge : Obligations.TIsReadOnlyByMerge := by
  rintro s s' ⟨h, hreads⟩
  obtain ⟨t, rfl⟩ : ∃ t, s' = { s with t := t } := ⟨_, h.symm⟩
  refine outcomesAgree_step rfl rfl (fun hidle => ?_) fun i k m hrun hm _ => ?_
  · exact agree_portStep rfl rfl (agreeButT_of_seq rfl (by simp [hidle])) (fun _ => agreeButT_of_seq rfl (by simp))
      (fun _ => agreeButT_of_seq rfl (by simp)) (agreeButT_of_seq rfl (by simp))
  · by_cases hread : m = .readFrame
    · subst hread
      exact agree_microStepDone (agreeButT_refl _) fun _ => agreeButT_refl _
    by_cases hmerge : ∃ off mask n, m = .writeMerged off mask n
    · obtain ⟨off, mask, n, rfl⟩ := hmerge
      obtain ⟨rfl, hrmw⟩ := readsT_of_writeMerged hm
      obtain rfl : s.t = t := hreads ⟨i, hrun, hrmw⟩
      exact agreeButT_refl _
    · exact agreeButT_microStepDone (s := environmentMoves s) hm hread (by simpa using hmerge)

/-! ### The environment -/

/-- A micro-step looks at the environment for nothing but the answer of the read frame. -/
theorem perform_setEnv {m : MicroStep} {s : State} {e : Environment}
    (h : m = .readFrame → s.env.answer s.history 0x53#7 1 = e.answer s.history 0x53#7 1) :
    ∃ e', m.perform { s with env := e } = { m.perform s with env := e' } := by
  cases m with
  | readFrame =>
    refine ⟨e.afterRead 0x53#7 1, ?_⟩
    simp only [MicroStep.perform]
    rw [readTxnByte_eq (s := s) (h rfl), readTxnByte_eq (s := { s with env := e }) rfl]
  | clearErr | startBus | write | offsetFrame | writeMerged => exact ⟨_, rfl⟩

theorem agreeButEnv_microStepDone {i : Instr} {k : Nat} {m : MicroStep} {s : State} {e : Environment}
    (h : m = .readFrame → s.env.answer s.history 0x53#7 1 = e.answer s.history 0x53#7 1) :
    agreeButEnv (microStepDone i k m s) (microStepDone i k m { s with env := e }) := by
  obtain ⟨e', he'⟩ := perform_setEnv (s := s) h
  refine agree_microStepDone ?_ fun _ => ?_ <;> rw [he'] <;> rfl

/-- Settles O43: a step that is a read frame appends its answer, so only the premise of equal answers is left for it. -/
theorem environmentSeenOnlyThroughReads : Obligations.EnvironmentSeenOnlyThroughReads := by
  intro s s' h hread
  obtain ⟨e, rfl⟩ : ∃ e, s' = { s with env := e } := ⟨_, h.symm⟩
  refine outcomesAgree_step rfl rfl (fun _ => ?_) fun i k m _ _ hstep =>
    agreeButEnv_microStepDone (s := environmentMoves s) fun hm => ?_
  · exact agree_portStep rfl rfl rfl (fun _ => rfl) (fun _ => rfl) rfl
  · subst hm
    exact hread.resolve_left fun hnone => hnone _ _ hstep (by rw [microStepDone_history]; rfl)

end Sys2Proof.Machine
end

section
/-! PROOF. What every step does to ERR, BUSUP, T, RESP and the history (10_state.md R21 to R25, 20_memory.md R54). Settles O18,
O19, O39, O44 and O45. -/

namespace Sys2Proof.Machine

/-! ### ERR, BUSUP and T in one micro-step -/

section
variable (m : MicroStep) (s : State)

/-- ERR is cleared by INIT's step 0 and set by a failed read (10_state.md R21). -/
theorem perform_err_cases :
    (m.perform s).err = s.err ∨ (m = .clearErr ∧ (m.perform s).err = false) ∨
      ((m.perform s).err = true ∧ ∃ r, r.length ≠ 1 ∧ (m.perform s).history = s.history ++ [.read 0x53#7 1 r]) := by
  cases m with
  | clearErr => exact .inr (.inl ⟨rfl, rfl⟩)
  | readFrame =>
    rw [MicroStep.perform, readTxnByte_eq rfl]
    by_cases hr : (s.env.answer s.history 0x53#7 1).length = 1
    · exact .inl (by simp [hr])
    · exact .inr (.inr ⟨by simp [hr], _, hr, rfl⟩)
  | startBus | write | offsetFrame | writeMerged => exact .inl rfl

/-- BUSUP is set by INIT's step 1 (10_state.md R22). -/
theorem perform_busup_cases : (m.perform s).busup = s.busup ∨ (m = .startBus ∧ (m.perform s).busup = true) := by
  cases m with
  | startBus => exact .inr ⟨rfl, rfl⟩
  | clearErr | write | offsetFrame | readFrame | writeMerged => exact .inl rfl

/-- T is written by a read frame (10_state.md R24). -/
theorem perform_t_cases : (m.perform s).t = s.t ∨
    ∃ r, (m.perform s).history = s.history ++ [.read 0x53#7 1 r] ∧ (m.perform s).t = byteOf r := by
  cases m with
  | readFrame =>
    rw [MicroStep.perform, readTxnByte_eq rfl]
    exact .inr ⟨_, rfl, rfl⟩
  | clearErr | startBus | write | offsetFrame | writeMerged => exact .inl rfl

end

/-- Only micro-step 1 of INIT starts the bus (41_device_session.md R120). -/
theorem eq_init_one_of_startBus {i : Instr} {k : Nat} (h : (microSteps i)[k]? = some .startBus) : i = .init ∧ k = 1 := by
  cases i with
  | init => simpa using init_microStep_cases h
  | wrreg | rdreg | setrange | settapxyz | settapthr | settapdur | setinten | getintsrc =>
    have hmem := List.mem_of_getElem? h
    simp [microSteps, readTxn, readModifyWrite] at hmem

/-! ### RESP at the end of a micro-step -/

/-- A command goes to its next micro-step with RESP as it was, or responds OK (40_bus_transaction_layer.md R100). -/
theorem microStepDone_resp_cases (i : Instr) (k : Nat) (m : MicroStep) (s : State) :
    (k + 1 ≠ i.stepCount ∧ (microStepDone i k m s).seq = .run i (k + 1) ∧ (microStepDone i k m s).resp = s.resp ∧
      (microStepDone i k m s).responses = s.responses) ∨
    (k + 1 = i.stepCount ∧ ∃ data, (microStepDone i k m s).seq = .idle ∧
      (microStepDone i k m s).resp = { valid := true, kind := 0b00#2, data := data } ∧
      (microStepDone i k m s).responses = s.responses ++ [(0b00#2, data)]) := by
  by_cases hk : k + 1 = i.stepCount
  · rw [microStepDone_last hk]
    exact .inr ⟨hk, _, rfl, rfl, by simp [RespKind.code]⟩
  · rw [microStepDone_mid hk]
    exact .inl ⟨hk, rfl, by simp, by simp⟩

/-- Settles O18: at Idle a word taken clears RESP or is refused, in flight the last micro-step responds. -/
theorem responseLifecycle : Obligations.ResponseLifecycle := by
  intro s t hs
  obtain ⟨hidle, rfl⟩ | ⟨i, k, m, -, -, rfl⟩ := step_next_cases hs
  · obtain h | ⟨-, kind, -, h⟩ | ⟨hhost, i, -, h⟩ | ⟨hhost, -, h⟩ := portStep_cases (environmentMoves s) <;> rw [h]
    · exact .inl rfl
    · exact .inr (.inr ⟨rfl, rfl, kind.code_ne, rfl⟩)
    · exact .inr (.inl ⟨hidle, hhost, rfl⟩)
    · exact .inr (.inl ⟨hidle, hhost, rfl⟩)
  · obtain ⟨-, -, hresp, -⟩ | ⟨-, data, hseq, hresp, hlog⟩ := microStepDone_resp_cases i k m (environmentMoves s)
    · exact .inl hresp
    · refine .inr (.inr ⟨hseq, ?_⟩)
      rw [hresp, hlog]
      exact ⟨rfl, RespKind.ok.code_ne, rfl⟩

/-- Settles O19: in flight no micro-step touches the host's inputs. -/
theorem busyPortTakesNothing : Obligations.BusyPortTakesNothing := by
  intro s t i k h hs
  obtain ⟨m, -, rfl⟩ := exec_run_cases (s := environmentMoves s) h (step_run h hs)
  refine ⟨microStepDone_host, ?_⟩
  obtain ⟨-, hgoes⟩ | ⟨-, data, hseq, hresp, hlog⟩ := microStepDone_resp_cases i k m (environmentMoves s)
  · exact .inl hgoes
  · rw [hresp, hlog]
    exact .inr ⟨hseq, rfl, rfl, rfl⟩

/-! ### ERR, BUSUP and the history in one step of the machine -/

theorem nextIsReset_of_portAction {s : State} (h : s.seq = .idle) (hport : portAction (environmentMoves s) = .reset) :
    nextIsReset s := by
  rw [nextIsReset, nextAction, environmentMoves_seq, h]
  exact hport

/-- An Idle step that is no reset writes neither ERR nor BUSUP; a reset clears both. -/
theorem portStep_flags {s : State} (h : s.seq = .idle) :
    (nextIsReset s ∧ (portStep (environmentMoves s)).err = false ∧ (portStep (environmentMoves s)).busup = false) ∨
      ((portStep (environmentMoves s)).err = s.err ∧ (portStep (environmentMoves s)).busup = s.busup) := by
  obtain hp | ⟨-, kind, -, hp⟩ | ⟨-, i, -, hp⟩ | ⟨-, hport, hp⟩ := portStep_cases (environmentMoves s) <;> rw [hp]
  · exact .inr ⟨rfl, rfl⟩
  · exact .inr ⟨rfl, rfl⟩
  · exact .inr ⟨rfl, rfl⟩
  · exact .inl ⟨nextIsReset_of_portAction h hport, rfl, rfl⟩

/-- Settles O39: at Idle only a reset writes ERR; in flight the two micro-steps that do. -/
theorem onlyThreeEventsWriteErr : Obligations.OnlyThreeEventsWriteErr := by
  intro s t hs hne
  obtain ⟨hidle, rfl⟩ | ⟨i, k, m, hrun, hm, rfl⟩ := step_next_cases hs
  · obtain ⟨hreset, herr, -⟩ | ⟨herr, -⟩ := portStep_flags hidle
    · exact .inl ⟨herr, .inl hreset⟩
    · exact absurd herr hne
  · rw [microStepDone_err] at hne ⊢
    rw [microStepDone_history]
    obtain herr | ⟨rfl, herr⟩ | hfailed := perform_err_cases m (environmentMoves s)
    · exact absurd herr hne
    · obtain ⟨rfl, rfl⟩ := eq_init_zero_of_clearErr hm
      exact .inl ⟨herr, .inr hrun⟩
    · exact .inr hfailed

/-- Settles O44: at Idle only a reset writes BUSUP; in flight only micro-step 1 of INIT, which sets it. -/
theorem busupLifecycle : Obligations.BusupLifecycle := by
  intro s t hs
  obtain ⟨hidle, rfl⟩ | ⟨i, k, m, hrun, hm, rfl⟩ := step_next_cases hs
  · obtain ⟨hreset, -, hdown⟩ | ⟨-, hup⟩ := portStep_flags hidle
    · exact ⟨fun _ => .inr hreset, fun _ h => by simp [hdown] at h, fun h => by simp [hidle] at h⟩
    · exact ⟨fun h => .inl (hup.trans h), fun h h' => by simp [hup, h] at h', fun h => by simp [hidle] at h⟩
  · rw [microStepDone_busup]
    refine ⟨fun h => .inl (perform_keeps_busup h), fun hdown hup => ?_, fun hstart => ?_⟩
    · obtain hsame | ⟨rfl, -⟩ := perform_busup_cases m (environmentMoves s)
      · simp [hsame, hdown] at hup
      · obtain ⟨rfl, rfl⟩ := eq_init_one_of_startBus hm
        exact hrun
    · obtain ⟨rfl, rfl⟩ : i = .init ∧ k = 1 := by simpa [hrun] using hstart
      obtain rfl : MicroStep.startBus = m := Option.some.inj hm
      rfl

/-- Settles O45: `step_historyGrows`, without what it says of the event. -/
theorem onePrimitivePerStep : Obligations.OnePrimitivePerStep := fun _ _ hs =>
  (step_historyGrows hs).imp_right fun ⟨es, hes, hlen, _⟩ => ⟨es, hes, hlen⟩

end Sys2Proof.Machine
end

section
/-! PROOF. A command from its word on the port to its response: the run is its micro-steps one after another (10_state.md R23),
and what those do together is the row of 60_exceptions.md R167. Settles O32, O33 and O34. -/

namespace Sys2Proof.Machine

/-! ### Micro-steps one after another -/

/-- Micro-steps in order, the environment moving before each (20_memory.md R61); SEQ and RESP apart. -/
def performAll (ms : List MicroStep) (s : State) : State := ms.foldl (fun s m => m.perform (environmentMoves s)) s

@[simp] theorem performAll_nil (s : State) : performAll [] s = s := rfl

@[simp] theorem performAll_cons (m : MicroStep) (ms : List MicroStep) (s : State) :
    performAll (m :: ms) s = performAll ms (m.perform (environmentMoves s)) := rfl

theorem performAll_append (ms ms' : List MicroStep) (s : State) :
    performAll (ms ++ ms') s = performAll ms' (performAll ms s) := List.foldl_append

@[simp] theorem performAll_host (ms : List MicroStep) (s : State) : (performAll ms s).host = s.host := by
  induction ms generalizing s with
  | nil => rfl
  | cons m ms ih => simp [ih]

/-- No micro-step looks at SEQ. -/
theorem perform_setSeq (m : MicroStep) (s : State) (q : Seq) :
    m.perform { s with seq := q } = { m.perform s with seq := q } := by cases m <;> rfl

theorem performAll_setSeq (ms : List MicroStep) (s : State) (q : Seq) :
    performAll ms { s with seq := q } = { performAll ms s with seq := q } := by
  induction ms generalizing s with
  | nil => rfl
  | cons m ms ih => exact (congrArg (performAll ms) (perform_setSeq m (environmentMoves s) q)).trans (ih _)

/-! ### The run of a command -/

section
variable {s : State} {i : Instr}

/-- A command in flight after its first `j` micro-steps. -/
theorem runSteps_inFlight (h : s.seq = .run i 0) (hr : s.host.head? ≠ some .resetNow) {j : Nat} (hj : j < i.stepCount) :
    runSteps j s = .next { performAll ((microSteps i).take j) s with seq := .run i j } := by
  induction j with
  | zero => rw [runSteps_zero, ← h]; rfl
  | succ j ih =>
    obtain ⟨m, hm⟩ := getElem?_microSteps (i := i) (k := j) (by omega)
    have hstep := step_microStep (s := { performAll ((microSteps i).take j) s with seq := .run i j }) rfl
      (by simpa using hr) hm
    rw [runSteps_add (ih (by omega)), runSteps_next hstep, runSteps_zero, microStepDone_mid (by omega),
      List.take_add_one, hm, Option.toList_some, performAll_append]
    exact congrArg (fun u : State => Host.Outcome.next { u with seq := .run i (j + 1) })
      (perform_setSeq m (environmentMoves (performAll ((microSteps i).take j) s)) (.run i j))

/-- The state in which a command has responded, `s` being the one its micro-steps start from. -/
def commandDone (i : Instr) (s : State) : State :=
  respond .ok (resultOf i (performAll (microSteps i) s).t) (performAll (microSteps i) s)

theorem runSteps_toResponse (h : s.seq = .run i 0) (hr : s.host.head? ≠ some .resetNow) :
    runSteps i.stepCount s = .next (commandDone i s) := by
  obtain ⟨j, hj⟩ : ∃ j, j + 1 = i.stepCount := ⟨i.stepCount - 1, by cases i <;> rfl⟩
  obtain ⟨m, hm⟩ := getElem?_microSteps (i := i) (k := j) (by omega)
  have hall : (microSteps i).take j ++ [m] = microSteps i := by
    rw [← Option.toList_some, ← hm, ← List.take_add_one, hj, ← length_microSteps, List.take_length]
  have hstep := step_microStep (s := { performAll ((microSteps i).take j) s with seq := .run i j }) rfl
    (by simpa using hr) hm
  have hlast : m.perform (environmentMoves { performAll ((microSteps i).take j) s with seq := .run i j }) =
      { performAll (microSteps i) s with seq := .run i j } := by
    conv_rhs => rw [← hall, performAll_append]
    exact perform_setSeq m (environmentMoves (performAll ((microSteps i).take j) s)) (.run i j)
  rw [← hj, runSteps_add (runSteps_inFlight h hr (by omega)), runSteps_next hstep, runSteps_zero, microStepDone_last hj,
    hlast]
  rfl

variable {w : Word} {rest : List HostInput} (h : s.seq = .idle) (hhost : s.host = .word w :: rest)
  (hd : decode w = .command i) (hup : s.busup = true ∨ i = .init)
include h hhost hd hup

theorem step_accepts_command : step s = .next { takeWord (environmentMoves s) with seq := .run i 0 } := by
  rw [step_idle h, portStep_command (s := environmentMoves s) hhost hd]
  obtain ⟨hi, hdown, -⟩ | ⟨-, haccepted⟩ := acceptCommand_cases i (environmentMoves s)
  · obtain hup | hup := hup
    · exact absurd hup (by simpa using hdown)
    · exact absurd hup hi
  · rw [haccepted]

variable (hr : rest.head? ≠ some .resetNow)
include hr

/-- SEQ stands at micro-step `j` after `j + 1` steps, the acceptance being the first (70_reset_and_hazards.md R193). -/
theorem runSteps_command_mid {j : Nat} (hj : j < i.stepCount) :
    runSteps (j + 1) s =
      .next { performAll ((microSteps i).take j) (takeWord (environmentMoves s)) with seq := .run i j } := by
  rw [runSteps_next (step_accepts_command h hhost hd hup), runSteps_inFlight rfl (by simpa [hhost] using hr) hj,
    performAll_setSeq]

/-- A command accepted at Idle runs to its response. -/
theorem runSteps_command : runSteps (i.stepCount + 1) s = .next (commandDone i (takeWord (environmentMoves s))) := by
  rw [runSteps_next (step_accepts_command h hhost hd hup), runSteps_toResponse rfl (by simpa [hhost] using hr), commandDone,
    performAll_setSeq]
  rfl

end

/-! ### What the micro-steps of a command do together -/

/-- A read transaction, `r` being the list its read frame returned (40_bus_transaction_layer.md R102). -/
theorem performAll_readTxn (off : Byte) (s : State) : ∃ r e,
    performAll (readTxn off) s = { s with
      history := s.history ++ [oFrame off, rFrame r], env := e, t := byteOf r, err := (s.err || r.length != 1) } ∧
    ∀ r0 os, s.env.overrides = some r0 :: os → r = r0 ∧ e.overrides = os := by
  obtain ⟨e, he, hover⟩ : ∃ e, environmentMoves (readTxnOffset off (environmentMoves s)) =
      { s with history := s.history ++ [oFrame off], env := e } ∧ e.overrides = s.env.overrides := ⟨_, rfl, by simp⟩
  have hall : performAll (readTxn off) s = readTxnByte { s with history := s.history ++ [oFrame off], env := e } :=
    congrArg readTxnByte he
  rw [hall, readTxnByte_eq rfl]
  refine ⟨e.answer (s.history ++ [oFrame off]) 0x53#7 1, e.afterRead 0x53#7 1, ?_,
    fun r0 os h => ⟨Environment.answer_override (hover.trans h) .., by simp [hover, h]⟩⟩
  simp only [List.append_assoc]
  rfl

/-- A read-modify-write: at its last micro-step T is the byte just read (41_device_session.md R127). -/
theorem performAll_readModifyWrite (off mask n : Byte) (s : State) : ∃ r e,
    performAll (readModifyWrite off mask n) s = { s with
      history := s.history ++ [oFrame off, rFrame r, wFrame off (mergeBits (byteOf r) mask n)], env := e, t := byteOf r,
      err := (s.err || r.length != 1) } ∧
    ∀ r0 os, s.env.overrides = some r0 :: os → r = r0 ∧ e.overrides = os := by
  obtain ⟨r, e, hread, hover⟩ := performAll_readTxn off s
  refine ⟨r, e.advance.onWrite Config.devAddr [off, mergeBits (byteOf r) mask n], ?_, fun r0 os h => ?_⟩
  · rw [readModifyWrite, performAll_append, hread]
    simp only [performAll_cons, performAll_nil, MicroStep.perform, writeTxn, busWrite, environmentMoves, List.append_assoc]
    rfl
  · simpa using hover r0 os h

/-- INIT's micro-steps before its read transaction (41_device_session.md R120). -/
def initStart : List MicroStep := [.clearErr, .startBus, .write 0x2D#8 0x08#8]

theorem initSteps_eq : initSteps = initStart ++ readTxn Config.offId := rfl

theorem performAll_initStart (s : State) : ∃ e,
    performAll initStart s = { s with
      history := s.history ++ [.startup, wFrame 0x2D#8 0x08#8], env := e, err := false, busup := true } ∧
    e.overrides = s.env.overrides := by
  refine ⟨s.env.advance.advance.advance.onWrite Config.devAddr [0x2D#8, 0x08#8], ?_, by simp⟩
  simp only [initStart, performAll_cons, performAll_nil, MicroStep.perform, writeTxn, busWrite, busStartup, environmentMoves,
    List.append_assoc]
  rfl

/-- The micro-steps of a command do what the row of 60_exceptions.md R167 says, `r` being the list its one read returned. -/
theorem performAll_microSteps (i : Instr) (s : State) : ∃ r e,
    performAll (microSteps i) s = { s with
      history := s.history ++ expectedHistory i r, err := expectedErr i s.err r, busup := (decide (i = .init) || s.busup),
      t := if i.reads then byteOf r else s.t, env := e } ∧
    (i.reads = true → ∀ r0 os, s.env.overrides = some r0 :: os → r = r0 ∧ e.overrides = os) := by
  cases i with
  | wrreg | settapthr | settapdur | setinten => exact ⟨[], _, rfl, by simp [Instr.reads]⟩
  | rdreg reg =>
    obtain ⟨r, e, hread, hover⟩ := performAll_readTxn reg.offset s
    exact ⟨r, e, hread, fun _ => hover⟩
  | getintsrc =>
    obtain ⟨r, e, hread, hover⟩ := performAll_readTxn Config.offIntsrc s
    exact ⟨r, e, hread, fun _ => hover⟩
  | setrange code =>
    obtain ⟨r, e, hrmw, hover⟩ := performAll_readModifyWrite Config.offFmt rangeOwnedBits (rangeCode code) s
    exact ⟨r, e, hrmw, fun _ => hover⟩
  | settapxyz x y z =>
    obtain ⟨r, e, hrmw, hover⟩ := performAll_readModifyWrite Config.offAxes axesOwnedBits (tapMask x y z) s
    exact ⟨r, e, hrmw, fun _ => hover⟩
  | init =>
    obtain ⟨e0, hstart, hover0⟩ := performAll_initStart s
    obtain ⟨r, e, hread, hover⟩ := performAll_readTxn Config.offId (performAll initStart s)
    refine ⟨r, e, ?_, fun _ r0 os h => hover r0 os (by simpa [hstart, hover0] using h)⟩
    rw [microSteps, initSteps_eq, performAll_append, hread, hstart]
    simp only [List.append_assoc]
    rfl

/-- The response data is computed from T as the table says (30_encoding.md R83). -/
theorem resultOf_eq_expectedData (i : Instr) (r : List Byte) (t : Byte) :
    resultOf i (if i.reads then byteOf r else t) = expectedData i r := by
  cases i with
  | init => exact identityResult_byteOf r
  | wrreg | rdreg | setrange | settapxyz | settapthr | settapdur | setinten | getintsrc => rfl

/-- A command from the state its micro-steps start from to its response. -/
theorem commandDone_eq (i : Instr) (s : State) : ∃ r e,
    commandDone i s = { s with
      history := s.history ++ expectedHistory i r, err := expectedErr i s.err r, busup := (decide (i = .init) || s.busup),
      t := if i.reads then byteOf r else s.t, env := e, seq := .idle,
      resp := { valid := true, kind := 0b00#2, data := expectedData i r },
      responses := s.responses ++ [(0b00#2, expectedData i r)] } ∧
    (i.reads = true → ∀ r0 os, s.env.overrides = some r0 :: os → r = r0 ∧ e.overrides = os) := by
  obtain ⟨r, e, hall, hover⟩ := performAll_microSteps i s
  refine ⟨r, e, ?_, hover⟩
  rw [commandDone, hall, resultOf_eq_expectedData]
  rfl

/-- Settles O32: the run of the command's micro-steps, whose joint effect is the command's row. -/
theorem commandOutcomeTable : Obligations.CommandOutcomeTable := by
  intro i s rest h hhost hr hup
  obtain ⟨r, e, hdone, hover⟩ := commandDone_eq i (takeWord (environmentMoves s))
  refine ⟨r, _, (runSteps_command h hhost (decode_encode i) hup hr).trans (congrArg _ hdone), rfl, rfl, ?_, rfl, ?_, rfl, rfl,
    fun hreads => by simp [hreads], fun hreads => by simp [hreads], fun r0 os ho hreads => hover hreads r0 os ho⟩
  · obtain hup | hup := hup <;> simp [hup]
  · simp [hhost]

/-! ### Counts -/

/-- Frames per command (70_reset_and_hazards.md R193). -/
theorem countP_isFrame_expectedHistory (i : Instr) (r : List Byte) :
    (expectedHistory i r).countP BusEvent.isFrame = i.frameCount := by cases i <;> rfl

/-- Settles O33: SEQ by the run's first micro-steps, the frames by the command's row; a refusal adds nothing. -/
theorem stepAndFrameCounts : Obligations.StepAndFrameCounts := by
  refine ⟨fun i s rest h hhost hr hup => ⟨fun m hm => ⟨_, runSteps_command_mid h hhost (decode_encode i) hup hr hm, rfl⟩, ?_⟩,
    fun s w rest h hhost hw => ?_⟩
  · obtain ⟨r, t, hrun, hhist, -, -, hidle, -⟩ := commandOutcomeTable i s rest h hhost hr hup
    exact ⟨t, hrun, hidle, by rw [hhist, List.countP_append, countP_isFrame_expectedHistory]⟩
  · obtain ⟨hillegal, hnotReady⟩ := refusalsChangeOnlyTheResponse s w rest h hhost
    obtain hw | ⟨hdown, i, hi, hne⟩ := hw
    · exact ⟨_, hillegal hw, h, rfl⟩
    · exact ⟨_, hnotReady i hi hne hdown, h, rfl⟩

/-- Settles O34: the row of the command, the byte of a failed read being 0. -/
theorem failedReadLosesPreservedBits : Obligations.FailedReadLosesPreservedBits := by
  intro i off n s rest r os hi h hhost hr hup hover hfailed
  obtain ⟨r', t, hrun, hhist, herr, -, -, -, hresp, -, -, -, hread⟩ := commandOutcomeTable i s rest h hhost hr (.inl hup)
  have hbyte := byteOf_of_length_ne_one hfailed
  obtain ⟨code, rfl, rfl, rfl⟩ | ⟨x, y, z, rfl, rfl, rfl⟩ := hi <;> obtain ⟨rfl, -⟩ := hread r os hover rfl <;>
    exact ⟨t, hrun, by simp [hhist, expectedHistory, hbyte, wFrame], by simp [herr, expectedErr, hfailed], hresp⟩

end Sys2Proof.Machine
end

section
/-! PROOF. The pseudo-instructions of 30_encoding.md R80: the two commands of a pair have the same micro-steps and the same
response data, so their runs differ in SEQ alone. Settles O31. -/

namespace Sys2Proof.Machine

section
variable {a b : Instr}

/-- What the two commands of a pair share (30_encoding.md R80). -/
theorem IsAlias.same_meaning (h : IsAlias a b) :
    a ≠ .init ∧ b ≠ .init ∧ microSteps a = microSteps b ∧ resultOf a = resultOf b := by
  obtain ⟨v, rfl, rfl⟩ | ⟨v, rfl, rfl⟩ | ⟨v, rfl, rfl⟩ | ⟨rfl, rfl⟩ := h <;> exact ⟨by simp, by simp, rfl, rfl⟩

/-- A micro-step of `i` does not look at the SEQ it is run from, but for `k`. -/
theorem exec_run_setSeq {i c : Instr} {k : Nat} {m : MicroStep} {s : State} (hm : (microSteps i)[k]? = some m) :
    exec i { s with seq := .run c k } = .next (microStepDone i k m s) := by
  rw [exec_run (s := { s with seq := .run c k }) rfl hm, microStepDone, perform_setSeq m s (.run c k)]
  rfl

theorem commandDone_congr (hsteps : microSteps a = microSteps b) (hres : resultOf a = resultOf b) (s : State) :
    commandDone a s = commandDone b s := by rw [commandDone, commandDone, hsteps, hres]

end

/-- Settles O31: acceptance and refusal do not look at the command, the micro-steps and the response data are shared. -/
theorem aliasesHaveTheSameEffect : Obligations.AliasesHaveTheSameEffect := by
  intro a b s halias
  obtain ⟨ha, hb, hsteps, hres⟩ := IsAlias.same_meaning halias
  have hcount : b.stepCount = a.stepCount := by rw [← length_microSteps, ← length_microSteps, hsteps]
  refine ⟨fun h hup => ?_, fun h hdown => ?_, fun k hk => ?_, fun rest h hr hup => ?_⟩
  · rw [exec_idle ha h, exec_idle hb h, acceptedOrNotReady, acceptedOrNotReady, if_pos hup, if_pos hup]
    exact ⟨rfl, rfl⟩
  · rw [exec_idle ha h, exec_idle hb h, acceptedOrNotReady, acceptedOrNotReady, hdown]
    rfl
  · obtain ⟨m, hm⟩ := getElem?_microSteps hk
    rw [exec_run_setSeq hm, exec_run_setSeq (hsteps ▸ hm)]
    by_cases hlast : k + 1 = a.stepCount
    · refine ⟨microStepDone a k m s, ?_⟩
      rw [if_neg (by omega), microStepDone_last hlast, microStepDone_last (hcount ▸ hlast), hres]
      exact ⟨rfl, rfl⟩
    · refine ⟨m.perform s, ?_⟩
      rw [if_pos (by omega), microStepDone_mid hlast, microStepDone_mid (hcount ▸ hlast)]
      exact ⟨rfl, rfl⟩
  · refine ⟨_, runSteps_command (s := { s with host := .word (encode a) :: rest }) h rfl (decode_encode a) (.inl hup) hr, ?_,
      rfl, by simp [commandDone]⟩
    rw [commandDone_congr hsteps hres]
    exact runSteps_command (s := { s with host := .word (encode b) :: rest }) h rfl (decode_encode b) (.inl hup) hr

end Sys2Proof.Machine
end

section
/-! PROOF. Programs: a list of words runs word by word (20_memory.md R54, 70_reset_and_hazards.md R195), each word either a
command run to its response or a refusal. Settles O36. -/

namespace Sys2Proof.Machine

section
variable {s : State} {w : Word} {rest : List HostInput}

/-- `t` is where `s` stands once the word `w` at the head of the port has been dealt with, `r` being what a read returned. -/
structure WordDone (s : State) (w : Word) (rest : List HostInput) (r : List Byte) (t : State) : Prop where
  idle : t.seq = .idle
  host : t.host = rest
  valid : t.resp.valid = true
  visible : t.visible = {
    err := wordErr s.busup s.err w r, busup := wordBusup s.busup w,
    responses := s.responses ++ [wordResponse s.busup w r], history := s.history ++ wordHistory s.busup w r }

theorem wordCommand_ok {busup : Bool} {i : Instr} (hd : decode w = .command i) (hup : busup = true ∨ i = .init) :
    wordCommand busup w = .ok i := by
  simp only [wordCommand, hd]
  exact if_pos (by simpa using hup)

theorem wordCommand_illegal {busup : Bool} {v : Word} (hd : decode w = .illegal v) : wordCommand busup w = .error 0b01#2 := by
  simp only [wordCommand, hd]

theorem wordCommand_notReady {i : Instr} (hd : decode w = .command i) (hi : i ≠ .init) :
    wordCommand false w = .error 0b10#2 := by
  simp only [wordCommand, hd]
  exact if_neg (by simpa using hi)

theorem stepCount_lt (i : Instr) : i.stepCount < 6 := by cases i <;> simp [Instr.stepCount]

/-- A command that is accepted takes at most six steps to its response. -/
theorem wordDone_command {i : Instr} (h : s.seq = .idle) (hhost : s.host = .word w :: rest)
    (hr : rest.head? ≠ some .resetNow) (hd : decode w = .command i) (hup : s.busup = true ∨ i = .init) :
    ∃ r t, runSteps (i.stepCount + 1) s = .next t ∧ WordDone s w rest r t := by
  obtain rfl := encode_of_decode hd
  obtain ⟨r, t, hrun, hhist, herr, htup, hidle, hthost, hresp, hlog, -⟩ := commandOutcomeTable i s rest h hhost hr hup
  have hword := wordCommand_ok hd hup
  refine ⟨r, t, hrun, hidle, hthost, by rw [hresp], ?_⟩
  have hbus : wordBusup s.busup (encode i) = true := by simpa [wordBusup, hd] using hup
  rw [State.visible, herr, htup, hlog, hhist, hbus, wordErr, wordResponse, wordHistory, hword]

/-- A refused word is dealt with in one step, which writes the response alone. -/
theorem wordDone_refused {code : BitVec 2} (h : s.seq = .idle) (hword : wordCommand s.busup w = .error code)
    (hbus : wordBusup s.busup w = s.busup) (r : List Byte) :
    WordDone s w rest r { s with
      resp := { valid := true, kind := code, data := 0x00#8 }, responses := s.responses ++ [(code, 0x00#8)], host := rest,
      env := s.env.advance } where
  idle := h
  host := rfl
  valid := rfl
  visible := by simp [State.visible, wordErr, wordResponse, wordHistory, hword, hbus]

/-- Every word on the port of an idle controller is dealt with in at most six steps. -/
theorem runSteps_word (h : s.seq = .idle) (hhost : s.host = .word w :: rest) (hr : rest.head? ≠ some .resetNow) :
    ∃ n r t, n ≤ 6 ∧ runSteps n s = .next t ∧ WordDone s w rest r t := by
  obtain ⟨hillegal, hnotReady⟩ := refusalsChangeOnlyTheResponse s w rest h hhost
  cases hd : decode w with
  | illegal v =>
    obtain rfl := decode_illegal_eq hd
    exact ⟨1, [], _, by decide, runSteps_next (hillegal hd),
      wordDone_refused h (wordCommand_illegal hd) (by simp [wordBusup, hd]) []⟩
  | command i =>
    by_cases hup : s.busup = true ∨ i = .init
    · obtain ⟨r, t, hrun, hdone⟩ := wordDone_command h hhost hr hd hup
      exact ⟨_, r, t, stepCount_lt i, hrun, hdone⟩
    · obtain ⟨hdown, hi⟩ : s.busup = false ∧ i ≠ .init := by simpa using hup
      exact ⟨1, [], _, by decide, runSteps_next (hnotReady i hd hi hdown),
        wordDone_refused h (hdown ▸ wordCommand_notReady hd hi) (by simp [wordBusup, hd, hi]) []⟩

end

/-- Settles O36: by induction on the words; a run is over when its last word has responded. -/
theorem programsRunToTheirEnd : Obligations.ProgramsRunToTheirEnd := by
  intro ws
  induction ws with
  | nil => exact fun s h hhost => ⟨0, [], s, by simp, rfl, runSteps_zero s, h, hhost, rfl, by simp⟩
  | cons w ws ih =>
    intro s h hhost
    have hr : (ws.map HostInput.word).head? ≠ some .resetNow := by cases ws <;> simp
    obtain ⟨n, r, u, hn, hrun, hdone⟩ := runSteps_word h hhost hr
    obtain ⟨n', rs, t, hn', hlen, hrun', hidle, hthost, hvisible, hover⟩ := ih u hdone.idle hdone.host
    refine ⟨n + n', r :: rs, t, by rw [List.length_cons]; omega, by simp [hlen], (runSteps_add hrun).trans hrun', hidle, hthost,
      by rw [hvisible, hdone.visible]; rfl, fun _ => ?_⟩
    cases ws with
    | cons w' ws => exact hover (by simp)
    | nil =>
      obtain rfl : n' = 0 := by simpa using hn'
      obtain rfl : u = t := by simpa [runSteps_zero] using hrun'
      simp [State.runOver, State.busyO, hidle, hthost, State.respValidO, hdone.valid]

end Sys2Proof.Machine
end

section
/-! PROOF. The register space and the reference device (95_test_vectors.md section 0): reading after a write, and what a frame
leaves unchanged. Settles O48. -/

namespace Sys2Proof.Machine

/-! ### The register space -/

section
variable (m : Memory) (a : Nat) (v : Byte) {b : Nat}

theorem Memory.read_erase_same : (m.erase a).read a = Memory.unlisted := by
  induction m with
  | nil => rfl
  | cons c m ih => by_cases hc : c.1 = a <;> simpa [erase, read, hc] using ih

theorem Memory.read_erase_other (h : b ≠ a) : (m.erase a).read b = m.read b := by
  induction m with
  | nil => rfl
  | cons c m ih => by_cases hc : c.1 = a <;> simp_all [erase, read, h.symm]

theorem Memory.read_insert_same : (m.insert a v).read a = v := by
  induction m with
  | nil => simp [insert, read]
  | cons c m ih =>
    rw [insert]
    split_ifs with hlt heq
    · simp [read]
    · simp [read]
    · rw [read, if_neg heq, ih]

theorem Memory.read_insert_other (h : b ≠ a) : (m.insert a v).read b = m.read b := by
  induction m with
  | nil => simp [insert, read, h.symm]
  | cons c m ih =>
    rw [insert]
    split_ifs with hlt heq
    · rw [read, if_neg h.symm]
    · rw [read, read, if_neg h.symm, if_neg (by simpa [heq] using h.symm)]
    · rw [read, read, ih]

theorem Memory.read_write_same : (m.write a v).read a = v := by
  rw [write]
  split_ifs with hv
  · rw [read_erase_same, hv]
  · exact read_insert_same m a v

theorem Memory.read_write_other (h : b ≠ a) : (m.write a v).read b = m.read b := by
  rw [write]
  split_ifs
  · exact read_erase_other m a h
  · exact read_insert_other m a v h

end

/-- Settles O48: by induction on the register space, for both ways a write changes it. -/
theorem registerSpaceLaws : Obligations.RegisterSpaceLaws := fun m a v _ =>
  ⟨m.read_write_same a v, fun _ hb => m.read_write_other a v hb⟩

/-! ### The reference device -/

section
variable (d : Device) (off v : Byte) {a : Byte}

@[simp] theorem Device.reg_setReg_same : (d.setReg off v).reg off = v := d.regs.read_write_same _ _

theorem Device.reg_setReg_other (h : a ≠ off) : (d.setReg off v).reg a = d.reg a :=
  d.regs.read_write_other _ _ (mt BitVec.eq_of_toNat_eq h)

variable {d}

theorem Device.onWrite_store (h : d.present = true) : d.onWrite [off, v] = { d.setReg off v with ptr := off } := if_pos h

theorem Device.onWrite_select (h : d.present = true) : d.onWrite [off] = { d with ptr := off } := if_pos h

theorem Device.onWrite_absent (h : d.present = false) (bytes : List Byte) : d.onWrite bytes = d := if_neg (by simp [h])

theorem Device.onRead_absent (h : d.present = false) : d.onRead = d := if_neg (by simp [h])

/-- A store changes no register but its own. -/
theorem Device.reg_onWrite_store (h : a ≠ off) : (d.onWrite [off, v]).reg a = d.reg a := by
  cases hp : d.present with
  | true => rw [onWrite_store off v hp]; exact d.reg_setReg_other off v h
  | false => rw [onWrite_absent hp]

theorem Device.reg_onWrite_select : (d.onWrite [off]).reg a = d.reg a := by
  cases hp : d.present with
  | true => rw [onWrite_select off hp]; rfl
  | false => rw [onWrite_absent hp]

/-- A read clears no register but interrupt-source, that one only when it is selected in a clear-on-read device
(20_memory.md R50). -/
theorem Device.reg_onRead (h : d.clearIntOnRead = false ∨ d.ptr ≠ 0x30#8 ∨ a ≠ 0x30#8) : d.onRead.reg a = d.reg a := by
  rw [onRead]
  split_ifs with hclear
  · obtain ⟨⟨-, hswitch⟩, hptr⟩ : (d.present = true ∧ d.clearIntOnRead = true) ∧ d.ptr = 0x30#8 := by
      simpa [Config.offIntsrc] using hclear
    exact d.reg_setReg_other _ _ ((h.resolve_left (by simp [hswitch])).resolve_left (not_not.mpr hptr))
  · rfl

end

/-! ### The environment after a frame -/

section
variable (e : Environment)

theorem registersKept_refl (keep : Device → Byte → Prop) (b : BusDevice) : registersKept keep b b :=
  fun d hd => ⟨d, hd, fun _ _ => rfl⟩

theorem registersKept_store (off v : Byte) :
    registersKept (fun _ a => a ≠ off) e.device (e.onWrite Config.devAddr [off, v]).device := fun d hd =>
  ⟨_, Environment.onWrite_reference hd _, fun _ => d.reg_onWrite_store off v⟩

theorem registersKept_select (off : Byte) :
    registersKept (fun _ _ => True) e.device (e.onWrite Config.devAddr [off]).device := fun d hd =>
  ⟨_, Environment.onWrite_reference hd _, fun _ _ => d.reg_onWrite_select off⟩

/-- A one-byte read that no override answers is seen by the reference device. -/
theorem Environment.afterRead_reference {e : Environment} {d : Device} (hd : e.device = .reference d) :
    (e.afterRead Config.devAddr Config.readLength).device = .reference (if e.overridden then d else d.onRead) := by
  simp only [afterRead, hd, BusDevice.onRead, and_self, if_true]
  split <;> rfl

theorem registersKept_read :
    registersKept (fun d a => d.clearIntOnRead = false ∨ d.ptr ≠ 0x30#8 ∨ a ≠ 0x30#8) e.device
      (e.afterRead Config.devAddr Config.readLength).device := by
  refine fun d hd => ⟨_, Environment.afterRead_reference hd, fun a ha => ?_⟩
  split
  · rfl
  · exact Device.reg_onRead ha

/-- No frame reaches an absent device. -/
theorem Environment.onWrite_absent {e : Environment} {d : Device} (hd : e.device = .reference d) (hp : d.present = false)
    (bytes : List Byte) : e.onWrite Config.devAddr bytes = e := by
  simp only [onWrite, hd, if_true, Device.onWrite_absent hp]
  rw [← hd]

end

end Sys2Proof.Machine
end

section
/-! PROOF. One micro-step by the spec's tables: a store, an offset frame, or neither (10_state.md R21 to R25, 20_memory.md R50),
and what it leaves unchanged in the controller and at the reference device. Settles O47, O49 and O54. -/

namespace Sys2Proof.Machine

section
variable {s : State} {i : Instr} {k : Nat} {m : MicroStep} {off v : Byte}

/-- The micro-step the tables say stores. -/
theorem perform_of_stored (hm : (microSteps i)[k]? = some m) (h : storedRegister i k s.t = some (off, v)) :
    m.perform s = writeTxn off v s := by
  obtain ⟨m', hm', hperf⟩ := microSteps_stored h
  obtain rfl : m = m' := Option.some.inj (hm.symm.trans hm')
  exact hperf s rfl

/-- The micro-step the tables say selects. -/
theorem perform_of_selected (hm : (microSteps i)[k]? = some m) (h : selectedRegister i k = some off) :
    m.perform s = readTxnOffset off s := by
  obtain ⟨m', hm', hperf⟩ := microSteps_selected h
  obtain rfl : m = m' := Option.some.inj (hm.symm.trans hm')
  exact hperf s

/-- A micro-step that stores or selects is one write frame and leaves the controller alone. -/
theorem perform_of_writes (hm : (microSteps i)[k]? = some m)
    (h : (storedRegister i k s.t).isSome = true ∨ (selectedRegister i k).isSome = true) :
    ∃ bytes, m.perform s = busWrite Config.devAddr bytes s := by
  obtain h | h := h
  · obtain ⟨p, hp⟩ := Option.isSome_iff_exists.mp h
    exact ⟨_, perform_of_stored (off := p.1) (v := p.2) hm hp⟩
  · obtain ⟨off, hoff⟩ := Option.isSome_iff_exists.mp h
    exact ⟨_, perform_of_selected hm hoff⟩

/-- A micro-step that does neither writes no frame and clears at most interrupt-source. -/
theorem perform_of_neither (hm : (microSteps i)[k]? = some m) (hs : storedRegister i k s.t = none)
    (ho : selectedRegister i k = none) :
    (∀ a bytes, (m.perform s).history ≠ s.history ++ [.write a bytes]) ∧
      registersKept (fun d a => d.clearIntOnRead = false ∨ d.ptr ≠ 0x30#8 ∨ a ≠ 0x30#8) s.env.device
        (m.perform s).env.device := by
  obtain ⟨-, -, rfl⟩ | ⟨-, -, rfl⟩ | rfl := microSteps_neither hm hs ho
  · exact ⟨by simp [MicroStep.perform], registersKept_refl _ _⟩
  · exact ⟨by simp [MicroStep.perform], registersKept_refl _ _⟩
  · exact ⟨by simp [MicroStep.perform], registersKept_read _⟩

/-- Only a read frame uses up an override. -/
theorem perform_overrides_cases (m : MicroStep) (s : State) :
    (m.perform s).env.overrides = s.env.overrides ∨ ∃ r, (m.perform s).history = s.history ++ [.read 0x53#7 1 r] := by
  cases m with
  | readFrame => exact .inr ⟨_, rfl⟩
  | clearErr | startBus | write | offsetFrame | writeMerged => exact .inl (by simp [MicroStep.perform])

end

/-- Settles O47: item by item from the one micro-step SEQ names. -/
theorem microStepFrame : Obligations.MicroStepFrame := by
  intro s t i k h hexec
  obtain ⟨m, hm, rfl⟩ := exec_run_cases h hexec
  simp only [microStepDone_host, microStepDone_busup, microStepDone_err, microStepDone_t, microStepDone_history,
    microStepDone_env, MicroStep.perform_moves, true_and]
  refine ⟨⟨fun hne => ?_, fun hne => ?_, fun hne => (perform_t_cases m s).resolve_left hne, fun hmid => ?_⟩,
    fun off v hst => ?_, fun off hsel => ?_, fun hst hsel => perform_of_neither hm hst hsel,
    fun hne => (perform_overrides_cases m s).resolve_left hne⟩
  · obtain ⟨rfl, -⟩ := (perform_busup_cases m s).resolve_left hne
    exact eq_init_one_of_startBus hm
  · obtain ⟨rfl, herr⟩ | hfailed := (perform_err_cases m s).resolve_left hne
    · obtain ⟨hi, hk⟩ := eq_init_zero_of_clearErr hm
      exact .inl ⟨hi, hk, herr⟩
    · exact .inr hfailed
  · obtain ⟨-, -, hresp⟩ | ⟨hlast, -⟩ := microStepDone_resp_cases i k m s
    · exact hresp
    · exact absurd hlast hmid
  · rw [perform_of_stored hm hst]
    exact ⟨rfl, rfl, registersKept_store _ off v⟩
  · rw [perform_of_selected hm hsel]
    exact ⟨rfl, rfl, registersKept_select _ off⟩

/-- Settles O49: the frame of a store or of a selection, heard by a device that is present. -/
theorem framesTouchOneRegister : Obligations.FramesTouchOneRegister := by
  intro i k s d off hd hp _ h
  refine ⟨fun v hst => ?_, fun hsel => ?_⟩
  · obtain ⟨m, hm, -⟩ := microSteps_stored hst
    refine ⟨_, d.onWrite [off, v], exec_run h hm, ?_⟩
    rw [microStepDone_history, microStepDone_env, perform_of_stored hm hst]
    refine ⟨rfl, Environment.onWrite_reference hd _, ?_, ?_, fun a => d.reg_onWrite_store off v⟩ <;>
      rw [Device.onWrite_store off v hp]
    exact d.reg_setReg_same off v
  · obtain ⟨m, hm, -⟩ := microSteps_selected hsel
    refine ⟨_, d.onWrite [off], exec_run h hm, ?_⟩
    rw [microStepDone_history, microStepDone_env, perform_of_selected hm hsel]
    exact ⟨rfl, Environment.onWrite_reference hd _, by rw [Device.onWrite_select off hp], fun a => d.reg_onWrite_select off⟩

/-! ### The absent device -/

/-- A command that reads nothing is one store (40_bus_transaction_layer.md R103; 41_device_session.md R123 to R125). -/
theorem microSteps_of_not_reads {i : Instr} (h : i.reads = false) :
    (∃ off v, microSteps i = [.write off v]) ∧ resultOf i = noData := by
  cases i with
  | wrreg | settapthr | settapdur | setinten => exact ⟨⟨_, _, rfl⟩, rfl⟩
  | rdreg | init | setrange | settapxyz | getintsrc => simp [Instr.reads] at h

/-- No micro-step changes an absent device. -/
theorem perform_absent {s : State} {d : Device} (hd : s.env.device = .reference d) (hp : d.present = false) (m : MicroStep) :
    (m.perform s).env.device = .reference d := by
  obtain ⟨-, ⟨-, h⟩ | ⟨-, h⟩ | ⟨bytes, h⟩ | ⟨-, h⟩⟩ := m.perform_cases s <;> rw [h]
  · exact hd
  · exact hd
  · exact (congrArg Environment.device (Environment.onWrite_absent hd hp bytes)).trans hd
  · rw [readTxnByte_env, Environment.afterRead_reference hd, Device.onRead_absent hp, ite_self]

/-- Settles O54: an absent device hears no frame, and a micro-step that stores or selects looks at no environment. -/
theorem lostWriteIsInvisible : Obligations.LostWriteIsInvisible := by
  refine ⟨fun i s d hreads hd hp h => ?_, fun i k s d hd hp h hk => ?_, fun i k s s' h hagree hw => ?_⟩
  · obtain ⟨⟨off, v, hsteps⟩, hres⟩ := microSteps_of_not_reads hreads
    have hlast : 0 + 1 = i.stepCount := by rw [← length_microSteps, hsteps]; rfl
    refine ⟨_, exec_run h (by rw [hsteps]; rfl), ?_⟩
    rw [microStepDone_last hlast, hres]
    exact ⟨Environment.onWrite_absent hd hp _, rfl, rfl, rfl, rfl⟩
  · obtain ⟨m, hm⟩ := getElem?_microSteps hk
    refine ⟨_, exec_run h hm, by rw [microStepDone_env, perform_absent hd hp], fun hw => ?_⟩
    obtain ⟨bytes, hperf⟩ := perform_of_writes hm hw
    rw [microStepDone_err, microStepDone_busup, microStepDone_t, hperf]
    exact ⟨rfl, rfl, rfl⟩
  · obtain ⟨e, rfl⟩ : ∃ e, s' = { s with env := e } := ⟨_, hagree.symm⟩
    refine outcomesAgree_exec h h fun m hm => agreeButEnv_microStepDone fun hread => ?_
    obtain ⟨bytes, hperf⟩ := perform_of_writes hm hw
    have hframe := congrArg State.history hperf
    simp [hread, MicroStep.perform] at hframe

end Sys2Proof.Machine
end

section
/-! PROOF. What other masters and the device itself can do to a command (70_reset_and_hazards.md R186 to R188), at the reference
device. Settles O51, O52 and O53. -/

namespace Sys2Proof.Machine

/-- One planned move at the reference device (20_memory.md R61). -/
theorem Environment.advance_reference {e : Environment} {d : Device} {mv : EnvMove} {later : List (List EnvMove)}
    (hd : e.device = .reference d) (hm : e.moves = [mv] :: later) : e.advance.device = .reference (d.move mv) := by
  simp [advance, hd, hm, BusDevice.move]

/-- Settles O51: the write merges with the T of the read already made, and overwrites what the move put there. -/
theorem lostUpdate : Obligations.LostUpdate := by
  intro s d code v later h hr hd hp _ hmoves
  have hdev : (environmentMoves s).env.device = .reference (d.setReg 0x31#8 v) := Environment.advance_reference hd hmoves
  have hpresent : (d.setReg 0x31#8 v).present = true := hp
  refine ⟨_, (d.setReg 0x31#8 v).onWrite [0x31#8, (s.t &&& 0xFC#8) ||| (code &&& 0x03#8)],
    step_microStep h hr (m := .writeMerged Config.offFmt rangeOwnedBits (rangeCode code)) rfl, ?_⟩
  rw [microStepDone_last rfl]
  refine ⟨Environment.onWrite_reference hdev _, ?_, rfl, rfl⟩
  rw [Device.onWrite_store _ _ hpresent]
  exact Device.reg_setReg_same ..

/-- The read frame that ends RDREG or GETINTSRC at the reference device, which answers with the selected register. -/
theorem readFrame_reference {s : State} {i : Instr} {d : Device} (hres : resultOf i = dataT) (hk : 2 = i.stepCount)
    (hd : s.env.device = .reference d) (hp : d.present = true) (ho : s.env.overrides = []) :
    (microStepDone i 1 .readFrame s).err = s.err ∧
      (microStepDone i 1 .readFrame s).resp = { valid := true, kind := 0b00#2, data := d.reg d.ptr } ∧
      (microStepDone i 1 .readFrame s).env.device = .reference d.onRead := by
  have hanswer : s.env.answer s.history 0x53#7 1 = [d.reg d.ptr] :=
    (Environment.answer_reference ho hd _).trans (if_pos hp)
  have hover : s.env.overridden = false := by rw [Environment.overridden, ho]
  rw [microStepDone_last hk, MicroStep.perform, readTxnByte_eq hanswer, hres]
  refine ⟨by simp, rfl, (Environment.afterRead_reference hd).trans ?_⟩
  simp [hover]

/-- Settles O52: the answer is the register the move selected. -/
theorem readBetweenFramesIsExposed : Obligations.ReadBetweenFramesIsExposed := by
  intro s d reg off later h hr hd hp ho hmoves
  have hdev : (environmentMoves s).env.device = .reference { d with ptr := off } := Environment.advance_reference hd hmoves
  obtain ⟨herr, hresp, -⟩ := readFrame_reference (i := .rdreg reg) rfl rfl hdev hp ho
  exact ⟨_, step_microStep h hr rfl, herr, hresp⟩

/-- Settles O53: the read clears the register it has just answered with. -/
theorem destructiveRead : Obligations.DestructiveRead := by
  intro i s d hi h hd hp hclear hptr _ ho
  have hread : d.onRead = d.setReg 0x30#8 0x00#8 := if_pos (by simp [hp, hclear, hptr, Config.offIntsrc])
  have hshape : (microSteps i)[1]? = some .readFrame ∧ resultOf i = dataT ∧ 2 = i.stepCount := by
    obtain rfl | rfl := hi <;> exact ⟨rfl, rfl, rfl⟩
  obtain ⟨hm, hres, hk⟩ := hshape
  obtain ⟨-, hresp, hdev⟩ := readFrame_reference hres hk hd hp ho
  refine ⟨_, _, exec_run h hm, hptr ▸ hresp, hdev, ?_⟩
  rw [hread]
  exact ⟨Device.reg_setReg_same .., fun a => d.reg_setReg_other _ _⟩

end Sys2Proof.Machine
end

section
/-! PROOF. The reference device is a healthy bus (20_memory.md R62, 95_test_vectors.md section 0): what the premise says of the
device is what the device is, after every step of a run without a reset. Settles O50. -/

namespace Sys2Proof.Machine

/-- The healthy fixture with the device `d` (95_test_vectors.md section 0). -/
structure Environment.HealthyWith (e : Environment) (d : Device) : Prop where
  device : e.device = .reference d
  present : d.present = true
  keeps : d.clearIntOnRead = false
  noOverrides : e.overrides = []
  noMoves : e.moves = []

/-- The simulation: what the premise says of the device is so of `d`. -/
structure DeviceView.Describes (v : DeviceView) (d : Device) : Prop where
  regs : v.regs = d.reg
  sel : ∀ off, v.sel = some off → off = d.ptr

theorem healthyTrace_append {v : DeviceView} {es es' : List BusEvent} (h : HealthyTrace v es)
    (h' : HealthyTrace (es.foldl DeviceView.after v) es') : HealthyTrace v (es ++ es') := by
  induction es generalizing v with
  | nil => exact h'
  | cons e es ih => exact ⟨h.1, ih h.2 h'⟩

section
variable {v : DeviceView} {d : Device} {e : Environment} {s t : State}

/-! ### Frames -/

theorem Environment.HealthyWith.onWrite {d' : Device} {bytes : List Byte} (h : e.HealthyWith d)
    (hd' : d.onWrite bytes = d') (hp : d'.present = d.present) (hk : d'.clearIntOnRead = d.clearIntOnRead) :
    (e.onWrite Config.devAddr bytes).HealthyWith d' where
  device := hd' ▸ Environment.onWrite_reference h.device bytes
  present := hp.trans h.present
  keeps := hk.trans h.keeps
  noOverrides := (Environment.onWrite_overrides ..).trans h.noOverrides
  noMoves := (Environment.onWrite_moves ..).trans h.noMoves

/-- H-a of 20_memory.md R62. -/
theorem DeviceView.Describes.store (h : v.Describes d) (off b : Byte) :
    (v.after (wFrame off b)).Describes { d.setReg off b with ptr := off } where
  regs := by
    funext a
    change (if a = off then b else v.regs a) = (d.setReg off b).reg a
    split_ifs with ha
    · rw [ha, d.reg_setReg_same]
    · rw [h.regs, d.reg_setReg_other off b ha]
  sel := by simp [after, wFrame, Config.devAddr]

/-- H-b of 20_memory.md R62. -/
theorem DeviceView.Describes.select (h : v.Describes d) (off : Byte) :
    (v.after (oFrame off)).Describes { d with ptr := off } where
  regs := h.regs
  sel := by simp [after, oFrame, Config.devAddr]

/-- H-c of 20_memory.md R62. -/
theorem DeviceView.Describes.answers (h : v.Describes d) : v.Answers (rFrame [d.reg d.ptr]) := by
  intro _ _
  cases hsel : v.sel with
  | none => exact ⟨_, rfl⟩
  | some off => simp [h.sel off hsel, h.regs]

theorem Environment.HealthyWith.answer (h : e.HealthyWith d) (hist : List BusEvent) :
    e.answer hist 0x53#7 1 = [d.reg d.ptr] :=
  (Environment.answer_reference h.noOverrides h.device hist).trans (if_pos h.present)

theorem Environment.HealthyWith.afterRead (h : e.HealthyWith d) : (e.afterRead 0x53#7 1).HealthyWith d where
  device := by
    have hkept : d.onRead = d := if_neg (by simp [h.keeps])
    rw [show e.afterRead 0x53#7 1 = e.afterRead Config.devAddr Config.readLength from rfl,
      Environment.afterRead_reference h.device, hkept, ite_self]
  present := h.present
  keeps := h.keeps
  noOverrides := by simp [h.noOverrides]
  noMoves := h.noMoves

/-! ### Steps -/

/-- The history grew from `s` to `t` by a healthy stretch, at whose end the device is described again. -/
def GrowsHealthily (v : DeviceView) (s t : State) : Prop :=
  ∃ es d', t.history = s.history ++ es ∧ HealthyTrace v es ∧ t.env.HealthyWith d' ∧
    (es.foldl DeviceView.after v).Describes d'

theorem growsHealthily_of_same (h : s.env.HealthyWith d) (hv : v.Describes d) (hhist : t.history = s.history)
    (henv : t.env = s.env) : GrowsHealthily v s t :=
  ⟨[], d, by simp [hhist], trivial, henv ▸ h, hv⟩

theorem growsHealthily_writeTxn (h : s.env.HealthyWith d) (hv : v.Describes d) (off b : Byte) :
    GrowsHealthily v s (writeTxn off b s) :=
  ⟨[wFrame off b], _, rfl, ⟨trivial, trivial⟩, h.onWrite (Device.onWrite_store off b h.present) rfl rfl, hv.store off b⟩

theorem growsHealthily_perform (h : s.env.HealthyWith d) (hv : v.Describes d) (m : MicroStep) :
    GrowsHealthily v s (m.perform s) := by
  cases m with
  | clearErr => exact growsHealthily_of_same h hv rfl rfl
  | startBus => exact ⟨[.startup], d, rfl, ⟨trivial, trivial⟩, h, hv⟩
  | write off b => exact growsHealthily_writeTxn h hv off b
  | writeMerged off mask n => exact growsHealthily_writeTxn h hv off _
  | offsetFrame off =>
    exact ⟨[oFrame off], _, rfl, ⟨trivial, trivial⟩, h.onWrite (Device.onWrite_select off h.present) rfl rfl, hv.select off⟩
  | readFrame =>
    rw [MicroStep.perform, readTxnByte_eq (h.answer _)]
    exact ⟨[rFrame [d.reg d.ptr]], d, rfl, ⟨hv.answers, trivial⟩, h.afterRead, hv⟩

/-- A host that presents words alone asks for no reset. -/
theorem portAction_ne_reset (h : ∀ x ∈ s.host, ∃ w, x = .word w) : portAction s ≠ .reset := by
  match hhost : s.host with
  | [] => simp [portAction, hhost]
  | .word w :: rest => cases hd : decode w <;> simp [portAction, hhost, hd]
  | .reset :: rest | .resetNow :: rest =>
    obtain ⟨w, hw⟩ := h _ (hhost ▸ List.mem_cons_self)
    simp at hw

theorem growsHealthily_portStep (h : s.env.HealthyWith d) (hv : v.Describes d) (hwords : ∀ x ∈ s.host, ∃ w, x = .word w) :
    GrowsHealthily v s (portStep s) ∧ ∀ x ∈ (portStep s).host, ∃ w, x = .word w := by
  obtain hp | ⟨-, kind, -, hp⟩ | ⟨-, i, -, hp⟩ | ⟨-, hreset, -⟩ := portStep_cases s
  · rw [hp]
    exact ⟨growsHealthily_of_same h hv rfl rfl, hwords⟩
  · rw [hp]
    exact ⟨growsHealthily_of_same h hv rfl rfl, fun x hx => hwords x (List.mem_of_mem_tail hx)⟩
  · rw [hp]
    exact ⟨growsHealthily_of_same h hv rfl rfl, fun x hx => hwords x (List.mem_of_mem_tail hx)⟩
  · exact absurd hreset (portAction_ne_reset hwords)

/-- With no other master the environment does nothing between the steps. -/
theorem environmentMoves_of_noMoves (h : s.env.moves = []) : environmentMoves s = s := by
  have hadvance : s.env.advance = s.env := by
    rw [Environment.advance, h]
    exact congrArg (fun ms => { s.env with moves := ms }) h.symm
  rw [environmentMoves, hadvance]

theorem growsHealthily_step (h : s.env.HealthyWith d) (hv : v.Describes d) (hwords : ∀ x ∈ s.host, ∃ w, x = .word w)
    (hs : step s = .next t) : GrowsHealthily v s t ∧ ∀ x ∈ t.host, ∃ w, x = .word w := by
  obtain ⟨-, rfl⟩ | ⟨i, k, m, -, -, rfl⟩ := step_next_cases hs <;> rw [environmentMoves_of_noMoves h.noMoves]
  · exact growsHealthily_portStep h hv hwords
  · obtain ⟨es, d', hes, hrest⟩ := growsHealthily_perform h hv m
    exact ⟨⟨es, d', by rw [microStepDone_history, hes], by rwa [microStepDone_env]⟩, by rwa [microStepDone_host]⟩

theorem healthyTrace_runSteps {n : Nat} (h : s.env.HealthyWith d) (hv : v.Describes d)
    (hwords : ∀ x ∈ s.host, ∃ w, x = .word w) (hrun : runSteps n s = .next t) :
    ∃ es, t.history = s.history ++ es ∧ HealthyTrace v es := by
  induction n generalizing s v d with
  | zero =>
    obtain rfl : s = t := by simpa [runSteps_zero] using hrun
    exact ⟨[], by simp, trivial⟩
  | succ n ih =>
    obtain ⟨u, hs, hu⟩ := runSteps_succ_cases hrun
    obtain ⟨⟨es, d', hes, htrace, henv, hv'⟩, hwords'⟩ := growsHealthily_step h hv hwords hs
    obtain ⟨es', hes', htrace'⟩ := ih henv hv' hwords' hu
    exact ⟨es ++ es', by rw [hes', hes, List.append_assoc], healthyTrace_append htrace htrace'⟩

end

/-- Settles O50: at the start the device's own view describes it. -/
theorem referenceDeviceIsHealthy : Obligations.ReferenceDeviceIsHealthy := by
  rintro n s t d hd - ⟨⟨d', hd', hp, hk⟩, ho, hm⟩ hwords hrun
  obtain rfl : d = d' := by simpa [hd] using hd'
  obtain ⟨es, hes, htrace⟩ := healthyTrace_runSteps (v := d.view) ⟨hd, hp, hk, ho, hm⟩ ⟨rfl, by simp [Device.view]⟩ hwords hrun
  rw [hes]
  exact ⟨by simp, by simpa using htrace⟩

end Sys2Proof.Machine
end
